-- ==== Sys2Proof/Word.lean ====
section
/-!
DEFINITION. The word types of the core. Every value is an unsigned number of a stated width
(00_scope.md R7), so bit vectors serve for register contents, addresses and immediates; indices
(registers, keys, row counts) are not values a program shifts or masks and are `Fin`s.
-/

namespace Sys2Proof

/-- An 8-bit value: a general register, a timer, a memory cell (00_scope.md R5). -/
abbrev Byte := BitVec 8

/-- A 16-bit value: `I`, `pc`, a return address, an opcode (00_scope.md R5). -/
abbrev Word := BitVec 16

/-- The 12-bit immediate address `nnn` (30_encoding.md R82). -/
abbrev Addr12 := BitVec 12

/-- The index of a general register, the fields `x` and `y` (30_encoding.md R82, R83). -/
abbrev RegIx := Fin 16

/-- The sprite height `n` of `Dxyn`, 0..15 (30_encoding.md R82). -/
abbrev RowCount := Fin 16

/-- The index of a key, 0x0..0xF (10_state.md R31). -/
abbrev KeyIx := Fin 16

end Sys2Proof
end

