-- ==== Sys2Proof/Config.lean ====
section
/-!
DEFINITION. What is fixed for the machine (00_scope.md R5), and the free values: the `opaque`
constants below have no body, so no proof can see what they give, and a statement about them holds
whatever they are.
-/

namespace Sys2Proof.Config

/-- Memory size in bytes: addresses 0x000..0xFFF (00_scope.md R5, 20_memory.md R50). -/
abbrev memBytes : Nat := 0x1000

/-- The program load address, which is also the reset `pc` (00_scope.md R5). -/
abbrev loadAddress : Nat := 0x200

/-- The longest program image: 4096 - 0x200 bytes (00_scope.md R5, 70_reset_and_hazards.md R290). -/
abbrev maxImage : Nat := 3584

/-- The built-in font: 16 glyphs of 5 bytes (00_scope.md R5). -/
abbrev fontBytes : Nat := 80

/-- Stack capacity (00_scope.md R5, 10_state.md R26). -/
abbrev stackDepth : Nat := 16

/-- Display columns and rows (00_scope.md R5, 10_state.md R30). -/
abbrev columns : Nat := 64

/-- Display rows (00_scope.md R5, 10_state.md R30). -/
abbrev rows : Nat := 32

/-- `RandomByte()` (41_alu.md R160): the byte RNG gives at its `k`-th draw, any value 0..255.
A free value (spec's treatment U2); assumption log 5. -/
opaque randomByte : Nat → Byte

/-- What a stack entry holds after the `k`-th `RET` popped it (10_state.md R26: "this spec leaves
that value unspecified"). A free value (spec's treatment U5); assumption log 6. -/
opaque poppedEntry : Nat → Word

end Sys2Proof.Config
end

