-- ==== Sys2Proof/Machine/State.lean ====
section
/-!
DEFINITION. The state of the core (10_state.md R20), the reasons a step can stop, and the state after
construction with an empty image (10_state.md R34). The field names are the spec's.
-/

namespace Sys2Proof.Machine

/-- Memory: (address, byte) pairs, in the canonical form `Memory.wf` (Machine/Ops.lean). An address
that is not listed reads as `Memory.unlisted` says. -/
abbrev Memory := List Host.Cell

/-- The display: 32 rows of 64 one-bit pixels, row-major (10_state.md R30). -/
abbrev Framebuffer := Vector (Vector Bool Config.columns) Config.rows

/-- A fatal condition of a running core with what it records (60_exceptions.md R261). `faultPc` is the
address of the instruction that raised it. Each is safe: the spec gives the condition, and no claim
reads the state after it (60_exceptions.md R262). Assumption log 1. -/
inductive Fault where
  /-- `CALL nnn` with 16 return addresses stacked (40_control_flow.md R114). Safe. -/
  | stackOverflow (faultPc : Word)
  /-- `RET` with an empty stack (40_control_flow.md R112). Safe. -/
  | stackUnderflow (faultPc : Word)
  /-- A byte access above 0xFFF, by fetch, `Dxyn`, `Fx33`, `Fx55` or `Fx65` (20_memory.md R55); `addr`
  is the first out-of-range address. Safe. -/
  | memoryBounds (faultPc : Word) (addr : Nat)
  /-- `Ex9E` or `ExA1` with `Vx > 0x0F` (44_timers_keypad.md R234, R236); `value` is `Vx`. Safe. -/
  | keyIndexRange (faultPc : Word) (value : Byte)
  deriving DecidableEq, Repr

/-- Why a step is no move of the model. -/
inductive Refusal where
  /-- An instruction `exec` gives no meaning yet. No arm of `exec` raises it. Safe. -/
  | notModelled (mnemonic : String)
  /-- `step` on a halted core, whatever its memory holds: "in `Halted` there is no step"
  (20_memory.md R58, 60_exceptions.md R263, treatment `refuse` of U12). Safe. -/
  | coreHalted (reason : Fault)
  deriving DecidableEq, Repr

/-- Whether the core runs (10_state.md R32). -/
inductive Status where
  | running
  | halted (reason : Fault)
  deriving DecidableEq, Repr, Inhabited

/-- The state of the core (10_state.md R20). The last two fields are the model's own. -/
structure State where
  /-- The general registers V0..VF (10_state.md R21). -/
  V : Vector Byte 16
  /-- The address register (10_state.md R25). -/
  I : Word
  /-- The program counter (10_state.md R24). -/
  pc : Word
  /-- The stack entries (10_state.md R26). -/
  stack : Vector Word Config.stackDepth
  /-- The stack pointer: how many entries are in use, 0..16 (10_state.md R26). -/
  sp : Fin (Config.stackDepth + 1)
  /-- The delay timer (10_state.md R27). -/
  DT : Byte
  /-- The sound timer (10_state.md R27). -/
  ST : Byte
  /-- The 4096 memory cells (10_state.md R29). -/
  mem : Memory
  /-- The pixels (10_state.md R30). -/
  pix : Framebuffer
  /-- The keys, true for down (10_state.md R31). -/
  key : Vector Bool 16
  /-- Running or halted (10_state.md R32). -/
  status : Status
  /-- The model's own: how many bytes RNG has given (assumption log 5). -/
  draws : Nat
  /-- The model's own: how many stack entries `RET` has popped (assumption log 6). -/
  pops : Nat
  deriving DecidableEq, Repr, Inhabited

/-- The state after construction with an empty image (10_state.md R34, 70_reset_and_hazards.md R290),
for the spec's default FONT and UNLOADED_BYTE (assumption log 3, 4). `construct`
(Machine/HostOps.lean) gives the state for every image and every value of the two parameters. -/
def State.reset : State where
  V := Vector.replicate 16 0
  I := 0
  pc := BitVec.ofNat 16 Config.loadAddress
  stack := Vector.replicate Config.stackDepth 0
  sp := 0
  DT := 0
  ST := 0
  mem := []
  pix := Vector.replicate Config.rows (Vector.replicate Config.columns false)
  key := Vector.replicate 16 false
  status := .running
  draws := 0
  pops := 0

end Sys2Proof.Machine
end

