-- ==== Sys2Proof/Machine/Ops.lean ====
section
/-!
DEFINITION. The named operations over registers, memory, stack and program counter
(00_scope.md R8), and entry into a fatal condition (60_exceptions.md R262).
-/

namespace Sys2Proof.Machine

/-- What an instruction or a step answers (00_scope.md R9). -/
abbrev Outcome := Host.Outcome State Fault Refusal

/-! ## Fatal conditions (60_exceptions.md §1) -/

/-- `raise Fatal(f)`: the step stops here and reports the reason (60_exceptions.md R262). The answer
carries no state, because every other component is unspecified afterwards. There is no return from
it (R264). -/
def raiseFatal (f : Fault) : Outcome := .fault f

/-- Goes on with the value of a partial operation, or raises its fatal condition. -/
def orRaise {α : Type} (r : Except Fault α) (k : α → Outcome) : Outcome :=
  match r with
  | .ok a => k a
  | .error f => raiseFatal f

/-- `fault_pc` (60_exceptions.md R261): the address of the executing instruction. While it executes,
`pc` has been advanced by 2 (40_control_flow.md, opening lines); assumption log 9. -/
def State.faultPc (s : State) : Word := s.pc - 2

/-- The fatal condition as the core's state: `status <- Halted(reason, info)` (60_exceptions.md R262);
`rest` stands for all the components that are unspecified afterwards. -/
def State.enterHalted (rest : State) (f : Fault) : State := { rest with status := .halted f }

/-- The numeric cause code (60_exceptions.md R261; code 1 is `LoadError.code`). -/
def Fault.code : Fault → Nat
  | .stackOverflow _ => 2
  | .stackUnderflow _ => 3
  | .memoryBounds _ _ => 4
  | .keyIndexRange _ _ => 5

/-- The recorded `fault_pc` (60_exceptions.md R261). -/
def Fault.pc : Fault → Word
  | .stackOverflow p => p
  | .stackUnderflow p => p
  | .memoryBounds p _ => p
  | .keyIndexRange p _ => p

/-! ## General registers (10_state.md R21) -/

/-- `V[x]`. -/
def State.getV (s : State) (x : RegIx) : Byte := s.V[x]

/-- `V[x] <- b`. No register is hardwired. -/
def State.setV (s : State) (x : RegIx) (b : Byte) : State := { s with V := s.V.set x b }

/-- The flag register VF (10_state.md R22). -/
abbrev VF : RegIx := 0xF

/-- Registers `k`, `k+1`, ... become the bytes of the list (the loop of 42_index_memory.md R182). -/
def fillRegs (v : Vector Byte 16) (k : Nat) : List Byte → Vector Byte 16
  | [] => v
  | b :: bs => fillRegs (v.setIfInBounds k b) (k + 1) bs

/-- `V[0] <- bs[0]`, `V[1] <- bs[1]`, .... -/
def State.fillV (s : State) (bs : List Byte) : State := { s with V := fillRegs s.V 0 bs }

/-! ## Address register, timers, program counter -/

/-- `I <- w` (10_state.md R25). -/
def State.setI (s : State) (w : Word) : State := { s with I := w }

/-- `DT <- b` (10_state.md R27). -/
def State.setDT (s : State) (b : Byte) : State := { s with DT := b }

/-- `ST <- b` (10_state.md R27). -/
def State.setST (s : State) (b : Byte) : State := { s with ST := b }

/-- `pc <- target`, a jump (40_control_flow.md R126). -/
def State.setPc (s : State) (target : Word) : State := { s with pc := target }

/-- The advance of the fetch: `pc <- (pc + 2) mod 2^16` (20_memory.md R53). -/
def State.advancePc (s : State) : State := s.setPc (s.pc + 2)

/-- A skip: a further 2 when the condition holds (00_scope.md R10, 40_control_flow.md R116). -/
def State.skipIf (s : State) (c : Bool) : State := if c then s.setPc (s.pc + 2) else s

/-- The rewind of a waiting `Fx0A`: `pc <- (pc - 2) mod 2^16` (44_timers_keypad.md R240). -/
def State.rewindPc (s : State) : State := s.setPc (s.pc - 2)

/-! ## Memory -/

/-- The spec's default FONT (92_eei_decisions.md, "Default font for D13"): glyph `d` at `5d .. 5d+4`,
top row first. Assumption log 3. -/
def defaultFont : List Byte :=
  [0xF0, 0x90, 0x90, 0x90, 0xF0] ++ [0x20, 0x60, 0x20, 0x20, 0x70] ++
  [0xF0, 0x10, 0xF0, 0x80, 0xF0] ++ [0xF0, 0x10, 0xF0, 0x10, 0xF0] ++
  [0x90, 0x90, 0xF0, 0x10, 0x10] ++ [0xF0, 0x80, 0xF0, 0x10, 0xF0] ++
  [0xF0, 0x80, 0xF0, 0x90, 0xF0] ++ [0xF0, 0x10, 0x20, 0x40, 0x40] ++
  [0xF0, 0x90, 0xF0, 0x90, 0xF0] ++ [0xF0, 0x90, 0xF0, 0x10, 0xF0] ++
  [0xF0, 0x90, 0xF0, 0x90, 0x90] ++ [0xE0, 0x90, 0xE0, 0x90, 0xE0] ++
  [0xF0, 0x80, 0x80, 0x80, 0xF0] ++ [0xE0, 0x90, 0x90, 0x90, 0xE0] ++
  [0xF0, 0x80, 0xF0, 0x80, 0xF0] ++ [0xF0, 0x80, 0xF0, 0x80, 0x80]

/-- The spec's default UNLOADED_BYTE (92_eei_decisions.md D12: "a simulator may take 0"). Assumption
log 4. -/
def defaultUnloaded (_a : Nat) : Byte := 0

/-- What an address that memory does not list reads as: the construction value for the default
parameters and an empty image (10_state.md R34). -/
def Memory.unlisted (a : Nat) : Byte :=
  if a < Config.fontBytes then defaultFont.getD a 0 else defaultUnloaded a

/-- The byte at an address, with no range check. -/
def Memory.read : Memory → Nat → Byte
  | [], a => unlisted a
  | (k, b) :: m, a => if k = a then b else read m a

/-- The memory without any entry for an address, which then reads as unlisted. -/
def Memory.dropCell (m : Memory) (a : Nat) : Memory := m.filter fun c => c.1 != a

/-- The memory with an entry for an address, before the first entry at a higher one. -/
def Memory.insertCell (a : Nat) (b : Byte) : Memory → Memory
  | [] => [(a, b)]
  | (k, c) :: m => if a < k then (a, b) :: (k, c) :: m else (k, c) :: insertCell a b m

/-- Sets the byte at an address, with no range check, keeping the canonical form: the value an
unlisted address reads as is not listed. -/
def Memory.write (m : Memory) (a : Nat) (b : Byte) : Memory :=
  if b = unlisted a then m.dropCell a else (m.dropCell a).insertCell a b

/-- The canonical form: addresses strictly rising, all of them in 0x000..0xFFF, and no entry equal to
what its address reads as unlisted. -/
abbrev Memory.wf (m : Memory) : Prop :=
  m.Pairwise (fun p q => p.1 < q.1) ∧ ∀ c ∈ m, c.1 < Config.memBytes ∧ c.2 ≠ Memory.unlisted c.1

/-- The canonical memory that holds a list of bytes from an address on, and lists nothing else. -/
def Memory.ofBytes (a : Nat) : List Byte → Memory
  | [] => []
  | b :: bs => if b = unlisted a then ofBytes (a + 1) bs else (a, b) :: ofBytes (a + 1) bs

/-- `MemRead(a, 1)` (00_scope.md R8, 20_memory.md R55). -/
def Memory.readByte (faultPc : Word) (m : Memory) (a : Nat) : Except Fault Byte :=
  if a > 0xFFF then .error (.memoryBounds faultPc a) else .ok (m.read a)

/-- `MemWrite(a, 1, b)` (00_scope.md R8, 20_memory.md R55). -/
def Memory.writeByte (faultPc : Word) (m : Memory) (a : Nat) (b : Byte) : Except Fault Memory :=
  if a > 0xFFF then .error (.memoryBounds faultPc a) else .ok (m.write a b)

/-- `MemRead` of the `n` bytes from `a` on, ascending (20_memory.md R57). The addresses are exact
naturals, never wrapped (42_index_memory.md, opening lines). -/
def Memory.readBlock (faultPc : Word) (m : Memory) (a : Nat) : Nat → Except Fault (List Byte)
  | 0 => .ok []
  | n + 1 =>
    match m.readByte faultPc a with
    | .error f => .error f
    | .ok b =>
      match readBlock faultPc m (a + 1) n with
      | .error f => .error f
      | .ok bs => .ok (b :: bs)

/-- `MemWrite` of a list of bytes from `a` on, ascending (20_memory.md R57). -/
def Memory.writeBlock (faultPc : Word) (m : Memory) (a : Nat) : List Byte → Except Fault Memory
  | [] => .ok m
  | b :: bs =>
    match m.writeByte faultPc a b with
    | .error f => .error f
    | .ok m' => writeBlock faultPc m' (a + 1) bs

/-- The `n` bytes an instruction reads from address `a` on. -/
def State.readBlock (s : State) (a n : Nat) : Except Fault (List Byte) :=
  s.mem.readBlock s.faultPc a n

/-- The state after an instruction stored a list of bytes from address `a` on. -/
def State.writeBlock (s : State) (a : Nat) (bs : List Byte) : Except Fault State :=
  match s.mem.writeBlock s.faultPc a bs with
  | .error f => .error f
  | .ok m => .ok { s with mem := m }

/-! ## The stack (10_state.md R26) -/

/-- Pushes the advanced `pc`, the return address (40_control_flow.md R114). -/
def State.pushPc (s : State) : Except Fault State :=
  if h : s.sp.val < Config.stackDepth then
    .ok { s with stack := s.stack.set s.sp.val s.pc h, sp := ⟨s.sp.val + 1, Nat.succ_lt_succ h⟩ }
  else .error (.stackOverflow s.faultPc)

/-- Pops the newest return address (40_control_flow.md R112). The vacated entry then holds a free
value (10_state.md R26); assumption log 6. -/
def State.popPc (s : State) : Except Fault (Word × State) :=
  if h : 0 < s.sp.val then
    have hk : s.sp.val - 1 < Config.stackDepth := by have := s.sp.isLt; omega
    .ok (s.stack[s.sp.val - 1], { s with
      stack := s.stack.set (s.sp.val - 1) (Config.poppedEntry s.pops) hk
      sp := ⟨s.sp.val - 1, Nat.lt_succ_of_lt hk⟩
      pops := s.pops + 1 })
  else .error (.stackUnderflow s.faultPc)

/-! ## The keypad (44_timers_keypad.md §1) -/

/-- The index, counted from `k`, of the first key of the list that is down. -/
def firstDown (k : Nat) : List Bool → Option Nat
  | [] => none
  | true :: _ => some k
  | false :: ks => firstDown (k + 1) ks

/-- `AnyKeyDown()`: the lowest index of a key that is down, or none (44_timers_keypad.md R232). -/
def State.anyKeyDown (s : State) : Option Nat := firstDown 0 s.key.toList

/-- "Query key down(index)" by an 8-bit value, which is a key index only up to 0xF
(44_timers_keypad.md R252, R234). -/
def State.keyDown (s : State) (v : Byte) : Except Fault Bool :=
  if h : v.toNat < 16 then .ok s.key[v.toNat] else .error (.keyIndexRange s.faultPc v)

end Sys2Proof.Machine
end

