-- ==== Sys2Proof/Machine/Operands.lean ====
section
/-!
DEFINITION. The operand forms: how the fields of an opcode meet registers and addresses
(30_encoding.md R83). Every immediate is unsigned and zero-extended.
-/

namespace Sys2Proof.Machine

/-- `zext_16(nnn)` (30_encoding.md R83). -/
def extendAddr (nnn : Addr12) : Word := nnn.setWidth 16

/-- An 8-bit register value where a 16-bit operand is needed (42_index_memory.md R172,
40_control_flow.md R124). -/
def extendByte (b : Byte) : Word := b.setWidth 16

/-- The target of `Bnnn`: `(zext_16(nnn) + V[0]) mod 2^16`, not masked to 12 bits
(40_control_flow.md R124). -/
def State.offsetTarget (s : State) (nnn : Addr12) : Word := extendAddr nnn + extendByte (s.getV 0)

/-- The address of a memory operand: `I`, from which the bytes ascend as exact naturals
(42_index_memory.md, opening lines). -/
def State.blockAddr (s : State) : Nat := s.I.toNat

/-- How many registers and bytes `Fx55` and `Fx65` move: `x + 1` (30_encoding.md R83). -/
def blockCount (x : RegIx) : Nat := x.val + 1

/-- `V[0], ..., V[x]`, what `Fx55` stores (42_index_memory.md R180). -/
def State.blockRegs (s : State) (x : RegIx) : List Byte := s.V.toList.take (blockCount x)

/-- `(I + x + 1) mod 2^16`, what `Fx55` and `Fx65` leave in `I` (42_index_memory.md R180, R182). -/
def State.afterBlock (s : State) (x : RegIx) : Word := s.I + BitVec.ofNat 16 (blockCount x)

/-- The hundreds, tens and ones digits (42_index_memory.md R176). -/
def bcdDigits (v : Byte) : List Byte :=
  [BitVec.ofNat 8 (v.toNat / 100), BitVec.ofNat 8 (v.toNat / 10 % 10), BitVec.ofNat 8 (v.toNat % 10)]

/-- `V[x] * 5`, exact, `Vx` not masked (42_index_memory.md R174). -/
def glyphAddr (v : Byte) : Word := BitVec.ofNat 16 (v.toNat * 5)

end Sys2Proof.Machine
end

