-- ==== Sys2Proof/Machine/Flags.lean ====
section
/-!
DEFINITION. The flag computations, all from the operand values on entry, and the order of the result
and flag writes (41_alu.md R140, 10_state.md R22).
-/

namespace Sys2Proof.Machine

/-- `bool(c)` as a register value (00_scope.md R7). -/
def flagByte (c : Bool) : Byte := if c then 1 else 0

/-- The carry of `8xy4` (41_alu.md R147): the exact sum exceeds 255. -/
def carryOut (a b : Byte) : Bool := decide (a.toNat + b.toNat > 255)

/-- The not-borrow of `a - b` (41_alu.md R148, R150): `a >= b`. -/
def noBorrow (a b : Byte) : Bool := decide (a.toNat ≥ b.toNat)

/-- The bit `8xy6` shifts out (41_alu.md R149): bit 0. -/
def shiftedOutRight (b : Byte) : Bool := b.getLsbD 0

/-- The bit `8xyE` shifts out (41_alu.md R151): bit 7. -/
def shiftedOutLeft (b : Byte) : Bool := b.getLsbD 7

/-- `VF <- bool(c)`. -/
def State.setFlag (s : State) (c : Bool) : State := s.setV VF (flagByte c)

/-- Writes the result to `Vx` and THEN the flag to VF, so that with `x = F` the flag stays
(41_alu.md R140). -/
def State.setResultFlag (s : State) (x : RegIx) (result : Byte) (c : Bool) : State :=
  (s.setV x result).setFlag c

end Sys2Proof.Machine
end

