-- ==== Sys2Proof/Machine/Arithmetic.lean ====
section
/-!
DEFINITION. Register loads, arithmetic, logic and random numbers (41_alu.md). The destination is `Vx`
and every operand is read as it was on entry (R140).
-/

namespace Sys2Proof.Machine

/-- `6xnn` (41_alu.md R141). -/
def execLdImm (x : RegIx) (nn : Byte) (s : State) : Outcome := .next (s.setV x nn)

/-- `7xnn` (41_alu.md R142): wraps modulo 256, no flag. -/
def execAddImm (x : RegIx) (nn : Byte) (s : State) : Outcome := .next (s.setV x (s.getV x + nn))

/-- `8xy0` (41_alu.md R143). -/
def execLdReg (x y : RegIx) (s : State) : Outcome := .next (s.setV x (s.getV y))

/-- `8xy1` (41_alu.md R144). -/
def execOrReg (x y : RegIx) (s : State) : Outcome := .next (s.setV x (s.getV x ||| s.getV y))

/-- `8xy2` (41_alu.md R145). -/
def execAndReg (x y : RegIx) (s : State) : Outcome := .next (s.setV x (s.getV x &&& s.getV y))

/-- `8xy3` (41_alu.md R146). -/
def execXorReg (x y : RegIx) (s : State) : Outcome := .next (s.setV x (s.getV x ^^^ s.getV y))

/-- `8xy4` (41_alu.md R147). -/
def execAddReg (x y : RegIx) (s : State) : Outcome :=
  .next (s.setResultFlag x (s.getV x + s.getV y) (carryOut (s.getV x) (s.getV y)))

/-- `8xy5` (41_alu.md R148). -/
def execSub (x y : RegIx) (s : State) : Outcome :=
  .next (s.setResultFlag x (s.getV x - s.getV y) (noBorrow (s.getV x) (s.getV y)))

/-- `8xy6` (41_alu.md R149): shifts `Vy` into `Vx`. -/
def execShr (x y : RegIx) (s : State) : Outcome :=
  .next (s.setResultFlag x (s.getV y >>> 1) (shiftedOutRight (s.getV y)))

/-- `8xy7` (41_alu.md R150). -/
def execSubn (x y : RegIx) (s : State) : Outcome :=
  .next (s.setResultFlag x (s.getV y - s.getV x) (noBorrow (s.getV y) (s.getV x)))

/-- `8xyE` (41_alu.md R151): shifts `Vy` into `Vx`. -/
def execShl (x y : RegIx) (s : State) : Outcome :=
  .next (s.setResultFlag x (s.getV y <<< 1) (shiftedOutLeft (s.getV y)))

/-- `Cxnn` for a given draw `r` (41_alu.md R161). -/
def State.afterRnd (s : State) (x : RegIx) (nn r : Byte) : State := s.setV x (r &&& nn)

/-- `Cxnn` (41_alu.md R160, R161): one draw a run, a free value; assumption log 5. -/
def execRnd (x : RegIx) (nn : Byte) (s : State) : Outcome :=
  .next { s.afterRnd x nn (Config.randomByte s.draws) with draws := s.draws + 1 }

end Sys2Proof.Machine
end

