-- ==== Sys2Proof/Machine/ControlFlow.lean ====
section
/-!
DEFINITION. Control transfer (40_control_flow.md). On entry `pc` is the address of the instruction
after this one.
-/

namespace Sys2Proof.Machine

/-- `1nnn` (40_control_flow.md R110). -/
def execJp (nnn : Addr12) (s : State) : Outcome := .next (s.setPc (extendAddr nnn))

/-- `00EE` (40_control_flow.md R112). -/
def execRet (s : State) : Outcome := orRaise s.popPc fun r => .next (r.2.setPc r.1)

/-- `2nnn` (40_control_flow.md R114). -/
def execCall (nnn : Addr12) (s : State) : Outcome :=
  orRaise s.pushPc fun t => .next (t.setPc (extendAddr nnn))

/-- `3xnn` (40_control_flow.md R116). -/
def execSeImm (x : RegIx) (nn : Byte) (s : State) : Outcome := .next (s.skipIf (s.getV x == nn))

/-- `4xnn` (40_control_flow.md R118). -/
def execSneImm (x : RegIx) (nn : Byte) (s : State) : Outcome := .next (s.skipIf (s.getV x != nn))

/-- `5xy0` (40_control_flow.md R120). -/
def execSeReg (x y : RegIx) (s : State) : Outcome := .next (s.skipIf (s.getV x == s.getV y))

/-- `9xy0` (40_control_flow.md R122). -/
def execSneReg (x y : RegIx) (s : State) : Outcome := .next (s.skipIf (s.getV x != s.getV y))

/-- `Bnnn` (40_control_flow.md R124). -/
def execJpV0 (nnn : Addr12) (s : State) : Outcome := .next (s.setPc (s.offsetTarget nnn))

/-- An unrecognized word: "nothing except the pc advance of the fetch" (30_encoding.md R86). -/
def execDw (_word : Word) (s : State) : Outcome := .next s

end Sys2Proof.Machine
end

