-- ==== Sys2Proof/Machine/DrawEngine.lean ====
section
/-!
DEFINITION. The draw engine (43_display.md §1). It reads no register and no memory of its own (R200):
the instruction passes it coordinates and sprite bytes.
-/

namespace Sys2Proof.Machine

/-- `pix(c, r)` (10_state.md R30). -/
def Framebuffer.get (p : Framebuffer) (c : Fin 64) (r : Fin 32) : Bool := p[r][c]

/-- `pix(c, r) <- b`. -/
def Framebuffer.put (p : Framebuffer) (c : Fin 64) (r : Fin 32) (b : Bool) : Framebuffer :=
  p.set r (p[r].set c b)

/-- Every pixel off. -/
def Framebuffer.clear : Framebuffer := Vector.replicate 32 (Vector.replicate 64 false)

/-- `(x0 + col) mod 64` (43_display.md R202). -/
def wrapColumn (x0 : Byte) (col : Nat) : Fin 64 := Fin.ofNat 64 (x0.toNat + col)

/-- `(y0 + row) mod 32` (43_display.md R202). -/
def wrapRow (y0 : Byte) (row : Nat) : Fin 32 := Fin.ofNat 32 (y0.toNat + row)

/-- What a draw has done so far: the pixels, and whether it turned an on-pixel off. -/
structure Drawn where
  pix : Framebuffer
  collided : Bool
  deriving DecidableEq, Repr

/-- One bit of a sprite byte (the body of the inner loop of 43_display.md R202). A 0 bit leaves its
pixel alone; a 1 bit flips it and notes a collision when the pixel was on. -/
def drawBit (c : Fin 64) (r : Fin 32) (bit : Bool) (d : Drawn) : Drawn :=
  if bit then ⟨d.pix.put c r (!d.pix.get c r), d.collided || d.pix.get c r⟩ else d

/-- The columns of a sprite row, in the order of the loop. -/
def spriteColumns : List Nat := [0, 1, 2, 3, 4, 5, 6, 7]

/-- One row of the sprite: column 0 is bit 7 (43_display.md R202). -/
def drawRow (x0 : Byte) (r : Fin 32) (b : Byte) (d : Drawn) : Drawn :=
  spriteColumns.foldl (fun d col => drawBit (wrapColumn x0 col) r (b.getLsbD (7 - col)) d) d

/-- The rows from `row` on, `sprite[0]` at the top (43_display.md R202). -/
def drawRows (x0 y0 : Byte) : Nat → List Byte → Drawn → Drawn
  | _, [], d => d
  | row, b :: bs, d => drawRows x0 y0 (row + 1) bs (drawRow x0 (wrapRow y0 row) b d)

/-- `Draw(x0, y0, sprite)` (43_display.md R202). -/
def draw (x0 y0 : Byte) (sprite : List Byte) (p : Framebuffer) : Drawn :=
  drawRows x0 y0 0 sprite ⟨p, false⟩

/-- The state after a draw: the new pixels, and VF the collision, written last (43_display.md R210). -/
def State.afterDraw (s : State) (d : Drawn) : State := { s with pix := d.pix }.setFlag d.collided

end Sys2Proof.Machine
end

