-- ==== Sys2Proof/Machine/Display.lean ====
section
/-!
DEFINITION. The display instructions (43_display.md).
-/

namespace Sys2Proof.Machine

/-- `00E0` (43_display.md R204). -/
def execCls (s : State) : Outcome := .next { s with pix := Framebuffer.clear }

/-- `Dxyn` (43_display.md R210): all sprite bytes are read before any pixel changes, the coordinates
before VF is written. -/
def execDrw (x y : RegIx) (n : RowCount) (s : State) : Outcome :=
  orRaise (s.readBlock s.blockAddr n.val) fun sprite =>
    .next (s.afterDraw (draw (s.getV x) (s.getV y) sprite s.pix))

end Sys2Proof.Machine
end

