-- ==== Sys2Proof/Machine/IndexMemory.lean ====
section
/-!
DEFINITION. The address register and the memory-block instructions (42_index_memory.md).
-/

namespace Sys2Proof.Machine

/-- `Annn` (42_index_memory.md R170). -/
def execLdI (nnn : Addr12) (s : State) : Outcome := .next (s.setI (extendAddr nnn))

/-- `Fx1E` (42_index_memory.md R172): modulo 2^16, no flag. -/
def execAddIVx (x : RegIx) (s : State) : Outcome := .next (s.setI (s.I + extendByte (s.getV x)))

/-- `Fx29` (42_index_memory.md R174). -/
def execLdFVx (x : RegIx) (s : State) : Outcome := .next (s.setI (glyphAddr (s.getV x)))

/-- `Fx33` (42_index_memory.md R176): `I` is not changed. -/
def execLdBVx (x : RegIx) (s : State) : Outcome :=
  orRaise (s.writeBlock s.blockAddr (bcdDigits (s.getV x))) .next

/-- `Fx55` (42_index_memory.md R180). -/
def execLdMemVx (x : RegIx) (s : State) : Outcome :=
  orRaise (s.writeBlock s.blockAddr (s.blockRegs x)) fun t => .next (t.setI (s.afterBlock x))

/-- `Fx65` (42_index_memory.md R182). -/
def execLdVxMem (x : RegIx) (s : State) : Outcome :=
  orRaise (s.readBlock s.blockAddr (blockCount x)) fun bs =>
    .next ((s.fillV bs).setI (s.afterBlock x))

end Sys2Proof.Machine
end

