-- ==== Sys2Proof/Machine/KeypadTimers.lean ====
section
/-!
DEFINITION. The keypad, key-wait and timer instructions (44_timers_keypad.md).
-/

namespace Sys2Proof.Machine

/-- `Ex9E` (44_timers_keypad.md R234). -/
def execSkp (x : RegIx) (s : State) : Outcome :=
  orRaise (s.keyDown (s.getV x)) fun down => .next (s.skipIf down)

/-- `ExA1` (44_timers_keypad.md R236). -/
def execSknp (x : RegIx) (s : State) : Outcome :=
  orRaise (s.keyDown (s.getV x)) fun down => .next (s.skipIf (!down))

/-- `Fx07` (44_timers_keypad.md R238). -/
def execLdVxDT (x : RegIx) (s : State) : Outcome := .next (s.setV x s.DT)

/-- `Fx0A` (44_timers_keypad.md R240): with no key down the step is a net no-op. -/
def execLdVxK (x : RegIx) (s : State) : Outcome :=
  match s.anyKeyDown with
  | none => .next s.rewindPc
  | some k => .next (s.setV x (BitVec.ofNat 8 k))

/-- `Fx15` (44_timers_keypad.md R242). -/
def execLdDTVx (x : RegIx) (s : State) : Outcome := .next (s.setDT (s.getV x))

/-- `Fx18` (44_timers_keypad.md R244). -/
def execLdSTVx (x : RegIx) (s : State) : Outcome := .next (s.setST (s.getV x))

end Sys2Proof.Machine
end

