-- ==== Sys2Proof/Syntax.lean ====
section
/-!
DEFINITION. The instructions: one constructor per row of spec/opcode_table.json, in its order, with
the operand fields of 30_encoding.md R82. The pattern stands in each docstring.
-/

namespace Sys2Proof

/-- An instruction of the core (30_encoding.md R84, R88). -/
inductive Instr where
  /-- `00E0`: clear the display (43_display.md R204). -/
  | cls
  /-- `00EE`: return from a subroutine (40_control_flow.md R112). -/
  | ret
  /-- `1nnn`: absolute jump (40_control_flow.md R110). -/
  | jp (nnn : Addr12)
  /-- `2nnn`: call (40_control_flow.md R114). -/
  | call (nnn : Addr12)
  /-- `3xnn`: skip the next word if `Vx = nn` (40_control_flow.md R116). -/
  | seImm (x : RegIx) (nn : Byte)
  /-- `4xnn`: skip the next word if `Vx ≠ nn` (40_control_flow.md R118). -/
  | sneImm (x : RegIx) (nn : Byte)
  /-- `5xy0`: skip the next word if `Vx = Vy` (40_control_flow.md R120). -/
  | seReg (x y : RegIx)
  /-- `6xnn`: load an immediate (41_alu.md R141). -/
  | ldImm (x : RegIx) (nn : Byte)
  /-- `7xnn`: add an immediate, no flag (41_alu.md R142). -/
  | addImm (x : RegIx) (nn : Byte)
  /-- `8xy0`: copy `Vy` into `Vx` (41_alu.md R143). -/
  | ldReg (x y : RegIx)
  /-- `8xy1`: bitwise or (41_alu.md R144). -/
  | orReg (x y : RegIx)
  /-- `8xy2`: bitwise and (41_alu.md R145). -/
  | andReg (x y : RegIx)
  /-- `8xy3`: bitwise exclusive or (41_alu.md R146). -/
  | xorReg (x y : RegIx)
  /-- `8xy4`: add, VF = carry (41_alu.md R147). -/
  | addReg (x y : RegIx)
  /-- `8xy5`: `Vx - Vy`, VF = no borrow (41_alu.md R148). -/
  | sub (x y : RegIx)
  /-- `8xy6`: `Vx = Vy >> 1`, VF = the bit shifted out (41_alu.md R149). -/
  | shr (x y : RegIx)
  /-- `8xy7`: `Vx = Vy - Vx`, VF = no borrow (41_alu.md R150). -/
  | subn (x y : RegIx)
  /-- `8xyE`: `Vx = Vy << 1`, VF = the bit shifted out (41_alu.md R151). -/
  | shl (x y : RegIx)
  /-- `9xy0`: skip the next word if `Vx ≠ Vy` (40_control_flow.md R122). -/
  | sneReg (x y : RegIx)
  /-- `Annn`: load the address register (42_index_memory.md R170). -/
  | ldI (nnn : Addr12)
  /-- `Bnnn`: jump to `nnn + V0` (40_control_flow.md R124). -/
  | jpV0 (nnn : Addr12)
  /-- `Cxnn`: a random byte masked by `nn` (41_alu.md R161). -/
  | rnd (x : RegIx) (nn : Byte)
  /-- `Dxyn`: draw an `n`-byte sprite at `(Vx, Vy)` (43_display.md R210). -/
  | drw (x y : RegIx) (n : RowCount)
  /-- `Ex9E`: skip the next word if key `Vx` is down (44_timers_keypad.md R234). -/
  | skp (x : RegIx)
  /-- `ExA1`: skip the next word if key `Vx` is up (44_timers_keypad.md R236). -/
  | sknp (x : RegIx)
  /-- `Fx07`: read the delay timer (44_timers_keypad.md R238). -/
  | ldVxDT (x : RegIx)
  /-- `Fx0A`: wait for a key (44_timers_keypad.md R240). -/
  | ldVxK (x : RegIx)
  /-- `Fx15`: write the delay timer (44_timers_keypad.md R242). -/
  | ldDTVx (x : RegIx)
  /-- `Fx18`: write the sound timer (44_timers_keypad.md R244). -/
  | ldSTVx (x : RegIx)
  /-- `Fx1E`: add `Vx` to the address register (42_index_memory.md R172). -/
  | addIVx (x : RegIx)
  /-- `Fx29`: point `I` at the glyph of `Vx` (42_index_memory.md R174). -/
  | ldFVx (x : RegIx)
  /-- `Fx33`: store the decimal digits of `Vx` (42_index_memory.md R176). -/
  | ldBVx (x : RegIx)
  /-- `Fx55`: store `V0..Vx` at `I` (42_index_memory.md R180). -/
  | ldMemVx (x : RegIx)
  /-- `Fx65`: load `V0..Vx` from `I` (42_index_memory.md R182). -/
  | ldVxMem (x : RegIx)
  /-- Any word no row above matches: a no-op (30_encoding.md R86). The word is kept, so that
  encoding gives it back. -/
  | dw (word : Word)
  deriving DecidableEq, Repr

/-- The mnemonic of an instruction's row, as spec/opcode_table.json spells it. -/
def Instr.mnemonic : Instr → String
  | .cls => "CLS"
  | .ret => "RET"
  | .jp _ => "JP_nnn"
  | .call _ => "CALL_nnn"
  | .seImm _ _ => "SE_Vx__nn"
  | .sneImm _ _ => "SNE_Vx__nn"
  | .seReg _ _ => "SE_Vx__Vy"
  | .ldImm _ _ => "LD_Vx__nn"
  | .addImm _ _ => "ADD_Vx__nn"
  | .ldReg _ _ => "LD_Vx__Vy"
  | .orReg _ _ => "OR_Vx__Vy"
  | .andReg _ _ => "AND_Vx__Vy"
  | .xorReg _ _ => "XOR_Vx__Vy"
  | .addReg _ _ => "ADD_Vx__Vy"
  | .sub _ _ => "SUB_Vx__Vy"
  | .shr _ _ => "SHR_Vx__Vy"
  | .subn _ _ => "SUBN_Vx__Vy"
  | .shl _ _ => "SHL_Vx__Vy"
  | .sneReg _ _ => "SNE_Vx__Vy"
  | .ldI _ => "LD_I__nnn"
  | .jpV0 _ => "JP_V0__nnn"
  | .rnd _ _ => "RND_Vx__nn"
  | .drw _ _ _ => "DRW_Vx__Vy__n"
  | .skp _ => "SKP_Vx"
  | .sknp _ => "SKNP_Vx"
  | .ldVxDT _ => "LD_Vx__DT"
  | .ldVxK _ => "LD_Vx__K"
  | .ldDTVx _ => "LD_DT__Vx"
  | .ldSTVx _ => "LD_ST__Vx"
  | .addIVx _ => "ADD_I__Vx"
  | .ldFVx _ => "LD_F__Vx"
  | .ldBVx _ => "LD_B__Vx"
  | .ldMemVx _ => "LD__I___Vx"
  | .ldVxMem _ => "LD_Vx___I"
  | .dw _ => "DW_0xhhhh__unrecognized_word__no-op"

end Sys2Proof
end

