-- ==== Sys2Proof/WellFormed.lean ====
section
/-!
DEFINITION. Well-formed instructions. The field types already bound every register index, immediate
and row count (30_encoding.md R82); what is left to check is that a data word `dw w` is a word that
no row of the opcode table recognizes (30_encoding.md R86). The table stands here as data, the match
and mask of each row of spec/opcode_table.json, written independently of the decoder.
-/

namespace Sys2Proof

/-- One row of spec/opcode_table.json: its mnemonic and its match and mask words. -/
structure OpcodeRow where
  mnemonic : String
  value : Word
  mask : Word
  deriving DecidableEq, Repr

/-- A word is recognized by a row when every fixed nibble of the row's pattern matches
(30_encoding.md R85). -/
def OpcodeRow.recognizes (r : OpcodeRow) (w : Word) : Bool := w &&& r.mask == r.value

/-- The rows of the top nibbles 0x0 to 0x7. -/
def opcodeRowsLow : List OpcodeRow := [
  ⟨"CLS", 0x00E0, 0xFFFF⟩,
  ⟨"RET", 0x00EE, 0xFFFF⟩,
  ⟨"JP_nnn", 0x1000, 0xF000⟩,
  ⟨"CALL_nnn", 0x2000, 0xF000⟩,
  ⟨"SE_Vx__nn", 0x3000, 0xF000⟩,
  ⟨"SNE_Vx__nn", 0x4000, 0xF000⟩,
  ⟨"SE_Vx__Vy", 0x5000, 0xF00F⟩,
  ⟨"LD_Vx__nn", 0x6000, 0xF000⟩,
  ⟨"ADD_Vx__nn", 0x7000, 0xF000⟩]

/-- The rows of the top nibble 0x8. -/
def opcodeRowsArith : List OpcodeRow := [
  ⟨"LD_Vx__Vy", 0x8000, 0xF00F⟩,
  ⟨"OR_Vx__Vy", 0x8001, 0xF00F⟩,
  ⟨"AND_Vx__Vy", 0x8002, 0xF00F⟩,
  ⟨"XOR_Vx__Vy", 0x8003, 0xF00F⟩,
  ⟨"ADD_Vx__Vy", 0x8004, 0xF00F⟩,
  ⟨"SUB_Vx__Vy", 0x8005, 0xF00F⟩,
  ⟨"SHR_Vx__Vy", 0x8006, 0xF00F⟩,
  ⟨"SUBN_Vx__Vy", 0x8007, 0xF00F⟩,
  ⟨"SHL_Vx__Vy", 0x800E, 0xF00F⟩]

/-- The rows of the top nibbles 0x9 to 0xE. -/
def opcodeRowsMid : List OpcodeRow := [
  ⟨"SNE_Vx__Vy", 0x9000, 0xF00F⟩,
  ⟨"LD_I__nnn", 0xA000, 0xF000⟩,
  ⟨"JP_V0__nnn", 0xB000, 0xF000⟩,
  ⟨"RND_Vx__nn", 0xC000, 0xF000⟩,
  ⟨"DRW_Vx__Vy__n", 0xD000, 0xF000⟩,
  ⟨"SKP_Vx", 0xE09E, 0xF0FF⟩,
  ⟨"SKNP_Vx", 0xE0A1, 0xF0FF⟩]

/-- The rows of the top nibble 0xF. -/
def opcodeRowsHigh : List OpcodeRow := [
  ⟨"LD_Vx__DT", 0xF007, 0xF0FF⟩,
  ⟨"LD_Vx__K", 0xF00A, 0xF0FF⟩,
  ⟨"LD_DT__Vx", 0xF015, 0xF0FF⟩,
  ⟨"LD_ST__Vx", 0xF018, 0xF0FF⟩,
  ⟨"ADD_I__Vx", 0xF01E, 0xF0FF⟩,
  ⟨"LD_F__Vx", 0xF029, 0xF0FF⟩,
  ⟨"LD_B__Vx", 0xF033, 0xF0FF⟩,
  ⟨"LD__I___Vx", 0xF055, 0xF0FF⟩,
  ⟨"LD_Vx___I", 0xF065, 0xF0FF⟩]

/-- The 34 recognizing rows of spec/opcode_table.json. -/
def opcodeTable : List OpcodeRow :=
  opcodeRowsLow ++ opcodeRowsArith ++ opcodeRowsMid ++ opcodeRowsHigh

/-- A word that some row of the opcode table recognizes. -/
def recognized (w : Word) : Bool := opcodeTable.any fun r => r.recognizes w

/-- Well-formedness: only a data word can fail it, when its word is some instruction's. -/
def Instr.wellFormed : Instr → Bool
  | .dw w => !recognized w
  | .cls | .ret => true
  | .jp _ | .call _ | .ldI _ | .jpV0 _ => true
  | .seImm _ _ | .sneImm _ _ | .ldImm _ _ | .addImm _ _ | .rnd _ _ => true
  | .seReg _ _ | .sneReg _ _ | .ldReg _ _ | .orReg _ _ | .andReg _ _ | .xorReg _ _ => true
  | .addReg _ _ | .sub _ _ | .shr _ _ | .subn _ _ | .shl _ _ => true
  | .drw _ _ _ => true
  | .skp _ | .sknp _ | .ldVxDT _ | .ldVxK _ | .ldDTVx _ | .ldSTVx _ => true
  | .addIVx _ | .ldFVx _ | .ldBVx _ | .ldMemVx _ | .ldVxMem _ => true

end Sys2Proof
end

