-- ==== Sys2Proof/Decode.lean ====
section
/-!
DEFINITION. The decoder, total on words and on byte lists, and after it the encoder. The decoder is
the switch of 30_encoding.md R85 over the fields of R82; the encoder writes the patterns of R84.
-/

namespace Sys2Proof

/-! ## The fields of an opcode (30_encoding.md R82) -/

/-- `op[15:12]`, the family. -/
def fieldTop (op : Word) : BitVec 4 := op.extractLsb' 12 4

/-- `op[11:8]`, the register index `x`. -/
def fieldX (op : Word) : RegIx := (op.extractLsb' 8 4).toFin

/-- `op[7:4]`, the register index `y`. -/
def fieldY (op : Word) : RegIx := (op.extractLsb' 4 4).toFin

/-- `op[3:0]`, a fixed sub-function nibble, or the row count of `Dxyn`. -/
def fieldN (op : Word) : BitVec 4 := op.extractLsb' 0 4

/-- `op[7:0]`, an immediate, or the fixed sub-function byte of `Ex..` and `Fx..`. -/
def fieldNN (op : Word) : Byte := op.extractLsb' 0 8

/-- `op[11:0]`, the immediate address. -/
def fieldNNN (op : Word) : Addr12 := op.extractLsb' 0 12

/-- The opcode whose high byte is `hi` and whose low byte is `lo` (20_memory.md R52: the byte at the
lower address is the high byte). -/
def joinBytes (hi lo : Byte) : Word := hi ++ lo

/-- The high byte of an opcode, the one at the lower address. -/
def highByte (w : Word) : Byte := w.extractLsb' 8 8

/-- The low byte of an opcode. -/
def lowByte (w : Word) : Byte := w.extractLsb' 0 8

/-! ## The decoder -/

/-- The family 0x8 by its sub-function nibble (30_encoding.md R84, R85, 41_alu.md R152). -/
def decodeArith (op : Word) : Instr :=
  match fieldN op with
  | 0x0#4 => .ldReg (fieldX op) (fieldY op)
  | 0x1#4 => .orReg (fieldX op) (fieldY op)
  | 0x2#4 => .andReg (fieldX op) (fieldY op)
  | 0x3#4 => .xorReg (fieldX op) (fieldY op)
  | 0x4#4 => .addReg (fieldX op) (fieldY op)
  | 0x5#4 => .sub (fieldX op) (fieldY op)
  | 0x6#4 => .shr (fieldX op) (fieldY op)
  | 0x7#4 => .subn (fieldX op) (fieldY op)
  | 0xE#4 => .shl (fieldX op) (fieldY op)
  | _ => .dw op

/-- The family 0xE by its sub-function byte (30_encoding.md R85). -/
def decodeKeySkip (op : Word) : Instr :=
  match fieldNN op with
  | 0x9E#8 => .skp (fieldX op)
  | 0xA1#8 => .sknp (fieldX op)
  | _ => .dw op

/-- The family 0xF by its sub-function byte (30_encoding.md R85). -/
def decodeMisc (op : Word) : Instr :=
  match fieldNN op with
  | 0x07#8 => .ldVxDT (fieldX op)
  | 0x0A#8 => .ldVxK (fieldX op)
  | 0x15#8 => .ldDTVx (fieldX op)
  | 0x18#8 => .ldSTVx (fieldX op)
  | 0x1E#8 => .addIVx (fieldX op)
  | 0x29#8 => .ldFVx (fieldX op)
  | 0x33#8 => .ldBVx (fieldX op)
  | 0x55#8 => .ldMemVx (fieldX op)
  | 0x65#8 => .ldVxMem (fieldX op)
  | _ => .dw op

/-- The instruction a word stands for (30_encoding.md R85). Total: a word that no pattern matches is
the no-op `dw` (R86, R87: no encoding traps). -/
def decodeWord (op : Word) : Instr :=
  match fieldTop op with
  | 0x0#4 => if op = 0x00E0#16 then .cls else if op = 0x00EE#16 then .ret else .dw op
  | 0x1#4 => .jp (fieldNNN op)
  | 0x2#4 => .call (fieldNNN op)
  | 0x3#4 => .seImm (fieldX op) (fieldNN op)
  | 0x4#4 => .sneImm (fieldX op) (fieldNN op)
  | 0x5#4 => if fieldN op = 0x0#4 then .seReg (fieldX op) (fieldY op) else .dw op
  | 0x6#4 => .ldImm (fieldX op) (fieldNN op)
  | 0x7#4 => .addImm (fieldX op) (fieldNN op)
  | 0x8#4 => decodeArith op
  | 0x9#4 => if fieldN op = 0x0#4 then .sneReg (fieldX op) (fieldY op) else .dw op
  | 0xA#4 => .ldI (fieldNNN op)
  | 0xB#4 => .jpV0 (fieldNNN op)
  | 0xC#4 => .rnd (fieldX op) (fieldNN op)
  | 0xD#4 => .drw (fieldX op) (fieldY op) (fieldN op).toFin
  | 0xE#4 => decodeKeySkip op
  | _ => decodeMisc op  -- 0xF, the one nibble left

/-- Why a byte list is no instruction. -/
inductive DecodeError where
  /-- Fewer than the two bytes every instruction has (30_encoding.md R80). The core itself never
  meets it: a fetch that runs past memory is the fatal condition MemoryBounds (20_memory.md R52).
  Safe; assumption log 14. -/
  | truncated
  deriving DecidableEq, Repr

/-- The instruction at the head of a byte list, with the bytes after it (30_encoding.md R80). -/
def decodeBytes : List Byte → Except DecodeError (Instr × List Byte)
  | hi :: lo :: rest => .ok (decodeWord (joinBytes hi lo), rest)
  | [_] => .error .truncated
  | [] => .error .truncated

/-! ## The encoder -/

/-- The word of four nibbles, from bit 15 down (30_encoding.md R82). -/
def word4 (a b c d : BitVec 4) : Word := ((a ++ b) ++ c) ++ d

/-- The word of the formats `xnn` and `x_sub8` (30_encoding.md R81). -/
def wordXNN (a : BitVec 4) (x : RegIx) (nn : Byte) : Word := (a ++ (BitVec.ofFin x : BitVec 4)) ++ nn

/-- The word of the formats `xy_sub` and `xyn` (30_encoding.md R81). -/
def wordXYN (a : BitVec 4) (x y : RegIx) (n : BitVec 4) : Word :=
  word4 a (BitVec.ofFin x) (BitVec.ofFin y) n

/-- The word of the format `nnn` (30_encoding.md R81). -/
def wordNNN (a : BitVec 4) (nnn : Addr12) : Word := a ++ nnn

/-- The word of an instruction (30_encoding.md R84). -/
def encode : Instr → Word
  | .cls => 0x00E0#16
  | .ret => 0x00EE#16
  | .jp nnn => wordNNN 0x1#4 nnn
  | .call nnn => wordNNN 0x2#4 nnn
  | .seImm x nn => wordXNN 0x3#4 x nn
  | .sneImm x nn => wordXNN 0x4#4 x nn
  | .seReg x y => wordXYN 0x5#4 x y 0x0#4
  | .ldImm x nn => wordXNN 0x6#4 x nn
  | .addImm x nn => wordXNN 0x7#4 x nn
  | .ldReg x y => wordXYN 0x8#4 x y 0x0#4
  | .orReg x y => wordXYN 0x8#4 x y 0x1#4
  | .andReg x y => wordXYN 0x8#4 x y 0x2#4
  | .xorReg x y => wordXYN 0x8#4 x y 0x3#4
  | .addReg x y => wordXYN 0x8#4 x y 0x4#4
  | .sub x y => wordXYN 0x8#4 x y 0x5#4
  | .shr x y => wordXYN 0x8#4 x y 0x6#4
  | .subn x y => wordXYN 0x8#4 x y 0x7#4
  | .shl x y => wordXYN 0x8#4 x y 0xE#4
  | .sneReg x y => wordXYN 0x9#4 x y 0x0#4
  | .ldI nnn => wordNNN 0xA#4 nnn
  | .jpV0 nnn => wordNNN 0xB#4 nnn
  | .rnd x nn => wordXNN 0xC#4 x nn
  | .drw x y n => wordXYN 0xD#4 x y (BitVec.ofFin n)
  | .skp x => wordXNN 0xE#4 x 0x9E#8
  | .sknp x => wordXNN 0xE#4 x 0xA1#8
  | .ldVxDT x => wordXNN 0xF#4 x 0x07#8
  | .ldVxK x => wordXNN 0xF#4 x 0x0A#8
  | .ldDTVx x => wordXNN 0xF#4 x 0x15#8
  | .ldSTVx x => wordXNN 0xF#4 x 0x18#8
  | .addIVx x => wordXNN 0xF#4 x 0x1E#8
  | .ldFVx x => wordXNN 0xF#4 x 0x29#8
  | .ldBVx x => wordXNN 0xF#4 x 0x33#8
  | .ldMemVx x => wordXNN 0xF#4 x 0x55#8
  | .ldVxMem x => wordXNN 0xF#4 x 0x65#8
  | .dw w => w

/-- The bytes of a word as memory holds them: the high byte at the lower address
(20_memory.md R52). -/
def wordBytes (w : Word) : List Byte := [highByte w, lowByte w]

/-- The two bytes of an instruction, big-endian (30_encoding.md R80). -/
def encodeBytes (i : Instr) : List Byte := wordBytes (encode i)

/-! ## Words as spec/opcode_table.json numbers them -/

/-- The opcode whose bits are the low `nbits` bits of `w`, the bits above them 0. -/
def tableWord (nbits w : Nat) : Word := BitVec.ofNat 16 (w % 2 ^ nbits)

/-- The instruction the decoder reads from the bytes of a table word. -/
def decodeTableWord (nbits w : Nat) : Option Instr :=
  match decodeBytes (wordBytes (tableWord nbits w)) with
  | .ok (i, _) => some i
  | .error _ => none

end Sys2Proof
end

