-- ==== Sys2Proof/Machine/Fetch.lean ====
section
/-!
DEFINITION. Fetching an instruction (20_memory.md R52), and placing one where the next fetch reads it.
-/

namespace Sys2Proof.Machine

/-- `Fetch16(a)` (20_memory.md R52): the byte at the lower address is the high byte. A fetch fault's
`fault_pc` is the address fetched (60_exceptions.md R261). -/
def Memory.fetch16 (m : Memory) (a : Word) : Except Fault Word :=
  match m.readByte a a.toNat with
  | .error f => .error f
  | .ok hi =>
    match m.readByte a (a.toNat + 1) with
    | .error f => .error f
    | .ok lo => .ok (joinBytes hi lo)

/-- The opcode at `pc`. -/
def State.fetch (s : State) : Except Fault Word := s.mem.fetch16 s.pc

/-- The state with an opcode's two bytes stored where the next fetch reads them. -/
def State.placeWord (s : State) (op : Word) : State :=
  { s with mem := (s.mem.write s.pc.toNat (highByte op)).write (s.pc.toNat + 1) (lowByte op) }

end Sys2Proof.Machine
end

