-- ==== Sys2Proof/Machine/Step.lean ====
section
/-!
DEFINITION. One call of "execute one instruction" (20_memory.md R53).
-/

namespace Sys2Proof.Machine

/-- One step: fetch, advance `pc`, execute. A step is taken only while running (20_memory.md R58); a
fetch fault leaves `pc` unadvanced. -/
def step (s : State) : Host.Outcome State Fault Refusal :=
  match s.status with
  | .halted reason => .refused (.coreHalted reason)
  | .running => orRaise s.fetch fun op => exec (decodeWord op) s.advancePc

/-- `s` with the opcode whose bits are `w` (numbered as spec/opcode_table.json numbers them) where
`step` fetches next. Nothing but memory changes. Assumption log 11. -/
def State.withFetchWord (s : State) (nbits w : Nat) : State := s.placeWord (tableWord nbits w)

end Sys2Proof.Machine
end

