-- ==== Sys2Proof/Machine/HostOps.lean ====
section
/-!
DEFINITION. The host interface (60_exceptions.md R275): construction, stepping, the tick, the keypad
and the pixels. A call that breaks a duty of the host has no move (R276): it answers `none`
(assumption log 7). Each operation is indivisible (20_memory.md R58); the host may call them in any
order (assumption log 8).
-/

namespace Sys2Proof.Machine

/-! ## Construction (70_reset_and_hazards.md §1) -/

/-- The fatal condition of construction (60_exceptions.md R261, 70_reset_and_hazards.md R291): no core
exists. It records the image length. -/
structure LoadError where
  imageLength : Nat
  deriving DecidableEq, Repr

/-- The numeric cause code (60_exceptions.md R261). -/
def LoadError.code (_e : LoadError) : Nat := 1

/-- The 4096 bytes construction leaves in memory (70_reset_and_hazards.md R290, 20_memory.md R51): the
font, UNLOADED_BYTE up to 0x1FF, the image, UNLOADED_BYTE after it. -/
def constructionBytes (font : Vector Byte Config.fontBytes) (unloaded : Nat → Byte)
    (image : List Byte) : List Byte :=
  font.toList ++ ((List.range' 0x050 0x1B0).map unloaded ++
    (image ++ (List.range' (0x200 + image.length) (3584 - image.length)).map unloaded))

/-- `construct(bytes)` (70_reset_and_hazards.md R290), for every FONT and every UNLOADED_BYTE, which
are OPEN parameters (92_eei_decisions.md D12, D13). -/
def construct (font : Vector Byte Config.fontBytes) (unloaded : Nat → Byte) (image : List Byte) :
    Except LoadError State :=
  if image.length > Config.maxImage then .error ⟨image.length⟩
  else .ok { State.reset with mem := Memory.ofBytes 0 (constructionBytes font unloaded image) }

/-! ## Stepping, and the halted core -/

/-- Whether the core runs (10_state.md R32). -/
def State.isRunning (s : State) : Bool :=
  match s.status with
  | .running => true
  | .halted _ => false

/-- Everything but `status` after a fatal condition raised in a state: unspecified
(60_exceptions.md R262), so nothing is known of it. Assumption log 2. -/
opaque afterFatal : State → State

/-- `execute_one_instruction()` (60_exceptions.md R275): the core after the step. A fatal condition
leaves a halted core whose `status` holds the reason (R262). No move on a halted core (R263). -/
def State.executeOne (s : State) : Option State :=
  match step s with
  | .next t => some t
  | .fault f => some ((afterFatal s).enterHalted f)
  | .refused _ => none

/-- Reading the halt reason, the one thing the host may do with a halted core (60_exceptions.md
R263). -/
def State.haltReason (s : State) : Option Fault :=
  match s.status with
  | .running => none
  | .halted f => some f

/-- An answer that only a running core gives (60_exceptions.md R275, last lines; assumption
log 15). -/
def State.whileRunning {α : Type} (s : State) (a : α) : Option α := if s.isRunning then some a else none

/-! ## Timers (44_timers_keypad.md §6) -/

/-- One timer, counted down and floored at 0 (44_timers_keypad.md R246). -/
def countDown (t : Byte) : Byte := if t = 0 then 0 else t - 1

/-- `advance_timers_one_tick()` (44_timers_keypad.md R246). -/
def State.tick (s : State) : Option State :=
  s.whileRunning { s with DT := countDown s.DT, ST := countDown s.ST }

/-- `should_play_sound()`: true iff `ST > 0` (44_timers_keypad.md R247). -/
def State.shouldPlaySound (s : State) : Option Bool := s.whileRunning (decide (s.ST.toNat > 0))

/-! ## Keypad (44_timers_keypad.md §7) -/

/-- `set_key(index, down)` (44_timers_keypad.md R250). -/
def State.setKey (s : State) (index : Nat) (down : Bool) : Option State :=
  if h : index < 16 then s.whileRunning { s with key := s.key.set index down } else none

/-- "Query key down(index)" (44_timers_keypad.md R252). -/
def State.queryKey (s : State) (index : Nat) : Option Bool :=
  if h : index < 16 then s.whileRunning s.key[index] else none

/-! ## Pixels (43_display.md R206, R214) -/

/-- `read_framebuffer()`: a copy of the whole grid (43_display.md R214). -/
def State.readFramebuffer (s : State) : Option Framebuffer := s.whileRunning s.pix

/-- `get_pixel(c, r)`: direct, no wraparound (43_display.md R206). -/
def State.getPixel (s : State) (c r : Nat) : Option Bool :=
  if h : c < 64 ∧ r < 32 then s.whileRunning (s.pix.get ⟨c, h.1⟩ ⟨r, h.2⟩) else none

/-- `set_pixel(c, r, b)`: direct, no wraparound (43_display.md R206). -/
def State.setPixel (s : State) (c r : Nat) (b : Bool) : Option State :=
  if h : c < 64 ∧ r < 32 then s.whileRunning { s with pix := s.pix.put ⟨c, h.1⟩ ⟨r, h.2⟩ b } else none

/-! ## Any order of operations (60_exceptions.md R276) -/

/-- The host operations that can change a constructed core (60_exceptions.md R275). -/
inductive HostOp where
  | executeOne
  | tick
  | setKey (index : Nat) (down : Bool)
  | setPixel (c r : Nat) (b : Bool)
  deriving DecidableEq, Repr

/-- One host operation; `none` is no move. -/
def State.apply (s : State) : HostOp → Option State
  | .executeOne => s.executeOne
  | .tick => s.tick
  | .setKey index down => s.setKey index down
  | .setPixel c r b => s.setPixel c r b

/-- A sequence of host operations, in the host's order. -/
def State.runHost (s : State) : List HostOp → Option State
  | [] => some s
  | op :: ops => (s.apply op).bind fun t => t.runHost ops

end Sys2Proof.Machine
end

