-- ==== Sys2Proof/Safety.lean ====
section
/-!
DEFINITION. The terms in which claims are made: what a step may change, when it raises a fatal
condition, which pixels a sprite targets, the invariant, and the end of a run.
-/

namespace Sys2Proof.Machine

/-! ## Frames -/

/-- The parts of the state (10_state.md R20, and the model's own two counters). -/
inductive Part where
  | regs | addr | pc | stack | delay | sound | memory | display | keypad | status | draws | pops
  deriving DecidableEq, Repr

/-- A part reads the same in two states. Memory and pixels are compared read by read. -/
def Part.same : Part → State → State → Prop
  | .regs, s, t => ∀ x, t.getV x = s.getV x
  | .addr, s, t => t.I = s.I
  | .pc, s, t => t.pc = s.pc
  | .stack, s, t => t.stack = s.stack ∧ t.sp = s.sp
  | .delay, s, t => t.DT = s.DT
  | .sound, s, t => t.ST = s.ST
  | .memory, s, t => ∀ a, t.mem.read a = s.mem.read a
  | .display, s, t => ∀ c r, t.pix.get c r = s.pix.get c r
  | .keypad, s, t => t.key = s.key
  | .status, s, t => t.status = s.status
  | .draws, s, t => t.draws = s.draws
  | .pops, s, t => t.pops = s.pops

/-- Nothing but the named parts changed. -/
def SameExcept (parts : List Part) (s t : State) : Prop := ∀ p, p ∉ parts → p.same s t

/-- Every register but the named ones reads as before. -/
def SameRegsExcept (xs : List RegIx) (s t : State) : Prop := ∀ k, k ∉ xs → t.getV k = s.getV k

/-- Every byte of memory outside the `n` bytes from `a` on reads as before. -/
def SameMemoryOutside (a n : Nat) (s t : State) : Prop :=
  ∀ b, b < a ∨ a + n ≤ b → t.mem.read b = s.mem.read b

/-- The parts of the state each instruction may change, from the lists of 10_state.md (R22, R25, R26,
R28, R30, R31) and the table of 20_memory.md R57. -/
def mayChange : Instr → List Part
  | .cls => [.display]
  | .ret => [.pc, .stack, .pops]
  | .jp _ | .jpV0 _ => [.pc]
  | .call _ => [.pc, .stack]
  | .seImm _ _ | .sneImm _ _ | .seReg _ _ | .sneReg _ _ | .skp _ | .sknp _ => [.pc]
  | .ldImm _ _ | .addImm _ _ | .ldReg _ _ | .orReg _ _ | .andReg _ _ | .xorReg _ _ => [.regs]
  | .addReg _ _ | .sub _ _ | .shr _ _ | .subn _ _ | .shl _ _ => [.regs]
  | .ldI _ | .addIVx _ | .ldFVx _ => [.addr]
  | .rnd _ _ => [.regs, .draws]
  | .drw _ _ _ => [.regs, .display]
  | .ldVxDT _ => [.regs]
  | .ldVxK _ => [.regs, .pc]
  | .ldDTVx _ => [.delay]
  | .ldSTVx _ => [.sound]
  | .ldBVx _ => [.memory]
  | .ldMemVx _ => [.memory, .addr]
  | .ldVxMem _ => [.regs, .addr]
  | .dw _ => []

/-- The registers an instruction may write: its destination, and VF where 10_state.md R22 lists the
instruction as a flag writer. -/
def mayWrite : Instr → RegIx → Prop
  | .addReg x _, k | .sub x _, k | .shr x _, k | .subn x _, k | .shl x _, k => k = x ∨ k = VF
  | .drw _ _ _, k => k = VF
  | .ldImm x _, k | .addImm x _, k | .rnd x _, k => k = x
  | .ldReg x _, k | .orReg x _, k | .andReg x _, k | .xorReg x _, k => k = x
  | .ldVxDT x, k | .ldVxK x, k => k = x
  | .ldVxMem x, k => k ≤ x
  | .cls, _ | .ret, _ | .jp _, _ | .call _, _ | .jpV0 _, _ | .ldI _, _ | .dw _, _ => False
  | .seImm _ _, _ | .sneImm _ _, _ | .seReg _ _, _ | .sneReg _ _, _ => False
  | .skp _, _ | .sknp _, _ | .ldDTVx _, _ | .ldSTVx _, _ => False
  | .addIVx _, _ | .ldFVx _, _ | .ldBVx _, _ | .ldMemVx _, _ => False

/-! ## Fatal conditions -/

/-- The MemoryBounds of an instruction that moves `n` bytes from `I` on: raised when the last of them
is above 0xFFF, reporting the first that is (60_exceptions.md R261, R265). -/
def blockFatal (s : State) (n : Nat) : Option Fault :=
  if 0 < n ∧ s.I.toNat + (n - 1) > 0xFFF then
    some (.memoryBounds (s.pc - 2) (if s.I.toNat > 0xFFF then s.I.toNat else 0x1000))
  else none

/-- The fatal condition an instruction raises, by the table of 60_exceptions.md R261. The state is the
one `exec` runs in, so `fault_pc` is `pc - 2`. -/
def fatalCondition (i : Instr) (s : State) : Option Fault :=
  match i with
  | .call _ => if s.sp.val = 16 then some (.stackOverflow (s.pc - 2)) else none
  | .ret => if s.sp.val = 0 then some (.stackUnderflow (s.pc - 2)) else none
  | .drw _ _ n => blockFatal s n.val
  | .ldBVx _ => blockFatal s 3
  | .ldMemVx x | .ldVxMem x => blockFatal s (x.val + 1)
  | .skp x | .sknp x =>
    if (s.getV x).toNat > 0xF then some (.keyIndexRange (s.pc - 2) (s.getV x)) else none
  | .cls | .jp _ | .jpV0 _ | .ldI _ | .dw _ => none
  | .seImm _ _ | .sneImm _ _ | .seReg _ _ | .sneReg _ _ => none
  | .ldImm _ _ | .addImm _ _ | .ldReg _ _ | .orReg _ _ | .andReg _ _ | .xorReg _ _ => none
  | .addReg _ _ | .sub _ _ | .shr _ _ | .subn _ _ | .shl _ _ | .rnd _ _ => none
  | .ldVxDT _ | .ldVxK _ | .ldDTVx _ | .ldSTVx _ | .addIVx _ | .ldFVx _ => none

/-- The two bytes at `pc`, the first the high byte (20_memory.md R52). -/
def State.wordAtPc (s : State) : Word :=
  joinBytes (s.mem.read s.pc.toNat) (s.mem.read (s.pc.toNat + 1))

/-- Both bytes of the next instruction lie in memory (20_memory.md R52). -/
abbrev State.fetchable (s : State) : Prop := s.pc.toNat ≤ 0xFFE

/-- A step that raises nothing. -/
def State.stepsSafely (s : State) : Prop :=
  s.status = .running ∧ s.fetchable ∧ fatalCondition (decodeWord s.wordAtPc) s.advancePc = none

/-! ## The invariant, and the end of a run -/

/-- What holds of every running core: it runs, and its memory is in canonical form (so every listed
address is in 0x000..0xFFF). -/
def State.Inv (s : State) : Prop := s.status = .running ∧ s.mem.wf

/-- The end of a run (70_reset_and_hazards.md R297): the fetched word is a jump to the step's own
`pc`. -/
def State.isFinal (s : State) : Prop :=
  s.status = .running ∧ s.fetchable ∧ ∃ nnn : Addr12,
    decodeWord s.wordAtPc = .jp nnn ∧ nnn.toNat = s.pc.toNat

/-! ## Sprites -/

/-- Some 1 bit of the sprite targets the pixel `(c, r)` (43_display.md R202). -/
def spriteTargets (x0 y0 : Byte) (sprite : List Byte) (c : Fin 64) (r : Fin 32) : Prop :=
  ∃ row col : Nat, ∃ h : row < sprite.length, col < 8 ∧ sprite[row].getLsbD (7 - col) = true ∧
    (x0.toNat + col) % 64 = c.val ∧ (y0.toNat + row) % 32 = r.val

/-- The sprite of `Dxyn`: the `n` bytes from `I` on (43_display.md R210). -/
def State.spriteBytes (s : State) (n : Nat) : List Byte :=
  (List.range n).map fun k => s.mem.read (s.I.toNat + k)

/-! ## Two runs -/

/-- An outcome with its next state, if it has one, changed by `f`. -/
def mapNext (f : State → State) : Outcome → Outcome
  | .next t => .next (f t)
  | .fault e => .fault e
  | .refused e => .refused e

/-- Two states that differ at most in stack entries at and above `sp` (10_state.md R26). -/
def SameLiveStack (s t : State) : Prop :=
  t = { s with stack := t.stack } ∧
    ∀ (k : Nat) (h : k < 16), k < s.sp.val → t.stack[k] = s.stack[k]

end Sys2Proof.Machine
end

