-- ==== Sys2Proof/Certificates/Slice0/Obligations.lean ====
section
/-!
DEFINITION. The statements for the provers. `exec i s` runs in the state after the fetch has advanced
`pc` by 2 (20_memory.md R53), so an instruction's own address is `s.pc - 2`. A frame is said by
`SameExcept parts s t` (every part not named reads as before), `SameRegsExcept` and
`SameMemoryOutside` of Sys2Proof/Safety.lean. Where a rule carries a mark [decision] or [derived], the
docstring names it and the statement's basis is 'derived'.
-/

open Sys2Proof Sys2Proof.Machine

/-! ## Encoding and decoding -/

/-- 30_encoding.md R80, R81, R84: decoding the two bytes of any well-formed instruction, whatever
bytes follow, gives that instruction and the bytes that follow. -/
def Obligations.DecodeOfEncodeGivesTheInstruction : Prop :=
  ∀ (i : Instr) (rest : List Byte), i.wellFormed = true →
    decodeBytes (encodeBytes i ++ rest) = .ok (i, rest)

/-- 30_encoding.md R84, R85: every word decodes to a well-formed instruction whose encoding is that
word, so no bit of a word is dropped and each word has one meaning. -/
def Obligations.EncodeOfDecodeGivesTheWord : Prop :=
  ∀ w : Word, encode (decodeWord w) = w ∧ (decodeWord w).wellFormed = true

/-- 30_encoding.md R84, R85, R86 (decision D4, strict decoding): the decoder's switch agrees with the
match and mask columns of opcode_table.json on every word: a row recognizes a word exactly when the
word decodes to that row's instruction, and a word no row recognizes is a data word. -/
def Obligations.DecoderAgreesWithTheOpcodeTable : Prop :=
  ∀ w : Word,
    (∀ r ∈ opcodeTable, (r.recognizes w = true ↔ (decodeWord w).mnemonic = r.mnemonic)) ∧
    (recognized w = false ↔ decodeWord w = .dw w)

/-- 30_encoding.md R82, R84: words written out by hand from the patterns decode to the instructions
they stand for, one for each family. -/
def Obligations.HandWrittenWordsDecode : Prop :=
  decodeWord 0x00EE#16 = .ret ∧ decodeWord 0x2ABC#16 = .call 0xABC#12 ∧
  decodeWord 0x3342#16 = .seImm 3 0x42#8 ∧ decodeWord 0x8126#16 = .shr 1 2 ∧
  decodeWord 0xA123#16 = .ldI 0x123#12 ∧ decodeWord 0xDBC2#16 = .drw 0xB 0xC 2 ∧
  decodeWord 0xE59E#16 = .skp 5 ∧ decodeWord 0xF265#16 = .ldVxMem 2 ∧
  decodeWord 0x5121#16 = .dw 0x5121#16

/-! ## The step -/

/-- 20_memory.md R53 (decisions D7, D9): when the two bytes at `pc` decode to an instruction, the step
of a running core is that instruction executed after `pc` has advanced by 2. -/
def Obligations.StepExecutesTheDecodedInstruction : Prop :=
  ∀ (s : State) (i : Instr), s.status = .running → s.pc.toNat ≤ 0xFFE →
    decodeBytes [s.mem.read s.pc.toNat, s.mem.read (s.pc.toNat + 1)] = .ok (i, []) →
    step s = exec i { s with pc := s.pc + 2 }

/-- 20_memory.md R52 (decision D5): a fetch reads the byte at the lower address as the high byte; at
0xFFF its low byte, and at every higher address its high byte, is the first byte out of range. -/
def Obligations.FetchIsBigEndianAndRangeChecked : Prop :=
  ∀ (m : Memory) (a : Word),
    (a.toNat ≤ 0xFFE → ∃ w : Word, m.fetch16 a = .ok w ∧
      w.toNat = (m.read a.toNat).toNat * 256 + (m.read (a.toNat + 1)).toNat) ∧
    (a.toNat = 0xFFF → m.fetch16 a = .error (.memoryBounds a 0x1000)) ∧
    (a.toNat ≥ 0x1000 → m.fetch16 a = .error (.memoryBounds a a.toNat))

/-- 20_memory.md R52, R53, 60_exceptions.md R261 (decision D5): a fetch fault ends the step before any
decode, with `fault_pc` the address fetched. -/
def Obligations.FetchFaultEndsTheStep : Prop :=
  ∀ s : State, s.status = .running → s.pc.toNat ≥ 0xFFF →
    step s = .fault (.memoryBounds s.pc (if s.pc.toNat = 0xFFF then 0x1000 else s.pc.toNat))

/-- 00_scope.md R9, 60_exceptions.md R261 (decision D9): a step of a running core either gives a next
state, which is running, or ends in a fatal condition whose `fault_pc` is the `pc` at the start of the
step; there is no other outcome. -/
def Obligations.RunningStepGoesOnOrReportsItsOwnPc : Prop :=
  ∀ s : State, s.status = .running →
    (∃ t, step s = .next t ∧ t.status = .running) ∨ (∃ f, step s = .fault f ∧ f.pc = s.pc)

/-- 60_exceptions.md R261, R265 (decisions D5, D8, D20): an instruction raises exactly the fatal
condition the table gives it for its operands, with the recorded values; in every other state it
completes. -/
def Obligations.FatalConditionsAreExactlyTheTable : Prop :=
  ∀ (i : Instr) (s : State),
    (∀ f, fatalCondition i s = some f → exec i s = .fault f) ∧
    (fatalCondition i s = none → ∃ t, exec i s = .next t)

/-- 60_exceptions.md R262 (decision D9): a fatal condition leaves a halted core whose status holds the
reason, and which takes no further step. -/
def Obligations.FatalConditionHaltsTheCore : Prop :=
  ∀ (s : State) (f : Fault), step s = .fault f →
    ∃ h, s.executeOne = some h ∧ h.status = .halted f ∧ h.haltReason = some f ∧ h.executeOne = none

/-- 60_exceptions.md R263 and the last line of R275 (decision D23): a halted core takes no step, no
tick, no `set_key` and no `set_pixel`; only its halt reason can be read. That the four queries of R275
have no answer then is the model's deduction (assumption log 15). -/
def Obligations.HaltedCoreOnlyShowsItsReason : Prop :=
  ∀ (s : State) (f : Fault), s.status = .halted f →
    step s = .refused (.coreHalted f) ∧ (∀ op, s.apply op = none) ∧ s.haltReason = some f ∧
    s.shouldPlaySound = none ∧ (∀ k, s.queryKey k = none) ∧
    s.readFramebuffer = none ∧ (∀ c r, s.getPixel c r = none)

/-- 30_encoding.md R86 (decision D4): an unrecognized word changes nothing except `pc`, which advances
by 2; executing a data word is no change at all. -/
def Obligations.UnrecognizedWordOnlyAdvancesPc : Prop :=
  (∀ s : State, s.status = .running → s.pc.toNat ≤ 0xFFE → recognized s.wordAtPc = false →
    step s = .next { s with pc := s.pc + 2 }) ∧
  (∀ (w : Word) (s : State), exec (.dw w) s = .next s)

/-- 70_reset_and_hazards.md R297 (decision D24): at a jump to its own address every further step leaves
the whole state unchanged. -/
def Obligations.SelfJumpStepChangesNothing : Prop :=
  ∀ s : State, s.isFinal → step s = .next s

/-! ## Invariants -/

/-- The invariant (a running core, memory in canonical form) is kept by every step; the canonical form
is the model's own representation of 20_memory.md R50 (assumption log 10). -/
def Obligations.StepKeepsInvariant : Prop :=
  ∀ s t : State, s.Inv → step s = .next t → t.Inv

/-- The invariant holds at reset. -/
def Obligations.ResetMeetsInvariant : Prop := State.reset.Inv

/-- The invariant holds of every constructed core, whatever the font, the unloaded bytes and the image
(70_reset_and_hazards.md R290). -/
def Obligations.ConstructedCoreMeetsInvariant : Prop :=
  ∀ (font : Vector Byte 80) (unloaded : Nat → Byte) (image : List Byte) (s : State),
    construct font unloaded image = .ok s → s.Inv

/-- Whatever operations the host calls, in whatever order (44_timers_keypad.md R248, 60_exceptions.md
R275, R276, decision D22), a core that met the invariant meets it or is halted; the canonical form in
the invariant is the model's own representation (assumption log 10). -/
def Obligations.EveryHostRunKeepsInvariant : Prop :=
  ∀ (ops : List HostOp) (s t : State), s.Inv → s.runHost ops = some t →
    t.Inv ∨ ∃ f, t.status = .halted f

/-- Two memories in canonical form that read the same everywhere are the same data (assumption
log 10). -/
def Obligations.CanonicalMemoriesWithEqualReadsAreEqual : Prop :=
  ∀ m m' : Memory, m.wf → m'.wf → (∀ a, m.read a = m'.read a) → m = m'

/-! ## Construction -/

/-- 10_state.md R34, 70_reset_and_hazards.md R290, R292: an image of at most 3584 bytes constructs a
core with pc = 0x200, every register, stack entry and timer 0, the font at 0x000, the image at 0x200
and UNLOADED_BYTE elsewhere. `I = 0` is the spec's decision D10; a dark display and keys up its
decision D11. -/
def Obligations.ConstructionLeavesTheResetTable : Prop :=
  ∀ (font : Vector Byte 80) (unloaded : Nat → Byte) (image : List Byte), image.length ≤ 3584 →
    ∃ s, construct font unloaded image = .ok s ∧
      s.pc = 0x200#16 ∧ (∀ x, s.getV x = 0#8) ∧ s.I = 0#16 ∧ s.sp.val = 0 ∧
      (∀ (k : Nat) (h : k < 16), s.stack[k] = 0#16) ∧ s.DT = 0#8 ∧ s.ST = 0#8 ∧
      (∀ c r, s.pix.get c r = false) ∧ (∀ (k : Nat) (h : k < 16), s.key[k] = false) ∧
      s.status = .running ∧
      (∀ (j : Nat) (h : j < 80), s.mem.read j = font[j]) ∧
      (∀ (j : Nat) (h : j < image.length), s.mem.read (0x200 + j) = image[j]) ∧
      (∀ a, 80 ≤ a → a < 0x1000 → (a < 0x200 ∨ 0x200 + image.length ≤ a) → s.mem.read a = unloaded a)

/-- 70_reset_and_hazards.md R290, R291: an image longer than 3584 bytes constructs no core; the
LoadError records its length (code 1 and the record are the spec's decision D26). -/
def Obligations.TooLongImageIsALoadError : Prop :=
  ∀ (font : Vector Byte 80) (unloaded : Nat → Byte) (image : List Byte), 3584 < image.length →
    construct font unloaded image = .error ⟨image.length⟩ ∧
      (⟨image.length⟩ : LoadError).code = 1

/-- The model's choice (assumption log 3, 4): `State.reset` is the core constructed from an empty
image with the spec's default FONT (92_eei_decisions.md D13) and UNLOADED_BYTE 0 (D12). -/
def Obligations.ResetIsDefaultConstruction : Prop :=
  ∀ font : Vector Byte 80, font.toList = defaultFont →
    construct font (fun _ => 0) [] = .ok State.reset

/-! ## Register arithmetic -/

/-- 41_alu.md R141, R143: `6xnn` writes `nn`, and `8xy0` writes `Vy` as it was, to `Vx`, and nothing
else changes. -/
def Obligations.LoadsWriteOnlyVx : Prop :=
  (∀ (s : State) (x : RegIx) (nn : Byte),
    decodeWord (wordXNN 0x6#4 x nn) = .ldImm x nn ∧
    ∃ t, exec (.ldImm x nn) s = .next t ∧ t.getV x = nn ∧
      SameRegsExcept [x] s t ∧ SameExcept [.regs] s t) ∧
  (∀ (s : State) (x y : RegIx),
    decodeWord (wordXYN 0x8#4 x y 0x0#4) = .ldReg x y ∧
    ∃ t, exec (.ldReg x y) s = .next t ∧ t.getV x = s.getV y ∧
      SameRegsExcept [x] s t ∧ SameExcept [.regs] s t)

/-- 41_alu.md R142: `7xnn` adds modulo 256 and has no flag effect. -/
def Obligations.AddImmediateWrapsWithoutFlag : Prop :=
  ∀ (s : State) (x : RegIx) (nn : Byte),
    decodeWord (wordXNN 0x7#4 x nn) = .addImm x nn ∧
    ∃ t, exec (.addImm x nn) s = .next t ∧
      (t.getV x).toNat = ((s.getV x).toNat + nn.toNat) % 256 ∧
      SameRegsExcept [x] s t ∧ SameExcept [.regs] s t

/-- 41_alu.md R144, R145, R146 (VF unchanged: decision D3; the codes 1, 2, 3 are derived in R84): the
logic instructions act bit by bit and write only `Vx`. -/
def Obligations.LogicActsBitwiseOnVxOnly : Prop :=
  ∀ (s : State) (x y : RegIx),
    (∃ t, exec (.orReg x y) s = .next t ∧
      (∀ j, (t.getV x).getLsbD j = ((s.getV x).getLsbD j || (s.getV y).getLsbD j)) ∧
      SameRegsExcept [x] s t ∧ SameExcept [.regs] s t) ∧
    (∃ t, exec (.andReg x y) s = .next t ∧
      (∀ j, (t.getV x).getLsbD j = ((s.getV x).getLsbD j && (s.getV y).getLsbD j)) ∧
      SameRegsExcept [x] s t ∧ SameExcept [.regs] s t) ∧
    (∃ t, exec (.xorReg x y) s = .next t ∧
      (∀ j, (t.getV x).getLsbD j = ((s.getV x).getLsbD j ^^ (s.getV y).getLsbD j)) ∧
      SameRegsExcept [x] s t ∧ SameExcept [.regs] s t)

/-- 41_alu.md R147, R140: `8xy4` writes the sum modulo 256 to `Vx` and the carry to VF, from the entry
values; with `x = F` the carry stays (decision D2). -/
def Obligations.AddRegisterSetsCarry : Prop :=
  ∀ (s : State) (x y : RegIx), ∃ t, exec (.addReg x y) s = .next t ∧
    t.getV VF = (if (s.getV x).toNat + (s.getV y).toNat > 255 then 1#8 else 0#8) ∧
    (x ≠ VF → (t.getV x).toNat = ((s.getV x).toNat + (s.getV y).toNat) % 256) ∧
    SameRegsExcept [x, VF] s t ∧ SameExcept [.regs] s t

/-- 41_alu.md R148, R140: `8xy5` writes `Vx - Vy` modulo 256 and VF = 1 exactly when there is no
borrow; with `x = F` the flag stays (decision D2). -/
def Obligations.SubtractSetsNotBorrow : Prop :=
  ∀ (s : State) (x y : RegIx), ∃ t, exec (.sub x y) s = .next t ∧
    t.getV VF = (if (s.getV x).toNat ≥ (s.getV y).toNat then 1#8 else 0#8) ∧
    (x ≠ VF → ((t.getV x).toNat : Int) = (((s.getV x).toNat : Int) - (s.getV y).toNat) % 256) ∧
    SameRegsExcept [x, VF] s t ∧ SameExcept [.regs] s t

/-- 41_alu.md R150, R140 (decisions D1, D2; the code 7 is the convention's, R84): `8xy7` writes
`Vy - Vx` modulo 256 to `Vx` and VF = 1 exactly when there is no borrow. -/
def Obligations.ReverseSubtractSetsNotBorrow : Prop :=
  ∀ (s : State) (x y : RegIx), ∃ t, exec (.subn x y) s = .next t ∧
    t.getV VF = (if (s.getV y).toNat ≥ (s.getV x).toNat then 1#8 else 0#8) ∧
    (x ≠ VF → ((t.getV x).toNat : Int) = (((s.getV y).toNat : Int) - (s.getV x).toNat) % 256) ∧
    SameRegsExcept [x, VF] s t ∧ SameExcept [.regs] s t

/-- 41_alu.md R149, R151, R140 (decisions D1, D2; the code 6 is the convention's, R84): the shifts put
`Vy` shifted by one into `Vx` and the bit shifted out of `Vy` into VF, from the entry value. -/
def Obligations.ShiftsMoveVyIntoVx : Prop :=
  ∀ (s : State) (x y : RegIx),
    (∃ t, exec (.shr x y) s = .next t ∧
      (t.getV VF).toNat = (s.getV y).toNat % 2 ∧
      (x ≠ VF → (t.getV x).toNat = (s.getV y).toNat / 2) ∧
      SameRegsExcept [x, VF] s t ∧ SameExcept [.regs] s t) ∧
    (∃ t, exec (.shl x y) s = .next t ∧
      (t.getV VF).toNat = (s.getV y).toNat / 128 ∧
      (x ≠ VF → (t.getV x).toNat = (s.getV y).toNat * 2 % 256) ∧
      SameRegsExcept [x, VF] s t ∧ SameExcept [.regs] s t)

/-- 41_alu.md R160, R161 (decision D14): `Cxnn` makes one draw and writes it masked by `nn`, so a
subset of the bits of `nn`. The draw is the free value `Config.randomByte` at the model's own counter
(assumption log 5); the last clause holds for every draw `r`. -/
def Obligations.RandomWritesOneMaskedDraw : Prop :=
  (∀ (s : State) (x : RegIx) (nn : Byte), ∃ t, exec (.rnd x nn) s = .next t ∧
    t.getV x = Config.randomByte s.draws &&& nn ∧ t.draws = s.draws + 1 ∧
    SameRegsExcept [x] s t ∧ SameExcept [.regs, .draws] s t) ∧
  (∀ (s : State) (x : RegIx) (nn r : Byte), (s.afterRnd x nn r).getV x &&& nn = r &&& nn ∧
    (s.afterRnd x nn r).getV x &&& ~~~nn = 0#8)

/-! ## Address register and memory blocks -/

/-- 42_index_memory.md R170, R174: `Annn` sets `I` to `nnn`, `Fx29` to `Vx * 5` with `Vx` not masked;
nothing else changes. -/
def Obligations.AddressLoadsSetOnlyI : Prop :=
  (∀ (s : State) (nnn : Addr12),
    decodeWord (wordNNN 0xA#4 nnn) = .ldI nnn ∧
    ∃ t, exec (.ldI nnn) s = .next t ∧ t.I.toNat = nnn.toNat ∧ SameExcept [.addr] s t) ∧
  (∀ (s : State) (x : RegIx),
    decodeWord (wordXNN 0xF#4 x 0x29#8) = .ldFVx x ∧
    ∃ t, exec (.ldFVx x) s = .next t ∧ t.I.toNat = (s.getV x).toNat * 5 ∧ SameExcept [.addr] s t)

/-- 42_index_memory.md R172 (no flag: decision D3): `Fx1E` adds `Vx` to `I` modulo 2^16 and touches
nothing else, so VF neither. -/
def Obligations.AddToAddressWrapsWithoutFlag : Prop :=
  ∀ (s : State) (x : RegIx), ∃ t, exec (.addIVx x) s = .next t ∧
    t.I.toNat = (s.I.toNat + (s.getV x).toNat) % 0x10000 ∧ SameExcept [.addr] s t

/-- 42_index_memory.md R176: `Fx33` stores the hundreds, tens and ones digits at `I`, `I+1`, `I+2` and
changes nothing else; when `I + 2` is above 0xFFF it reports the first address that is (decision
D5). -/
def Obligations.BcdStoresThreeDigitsAtI : Prop :=
  ∀ (s : State) (x : RegIx),
    (s.blockAddr + 2 ≤ 0xFFF → ∃ t, exec (.ldBVx x) s = .next t ∧
      (t.mem.read s.blockAddr).toNat = (s.getV x).toNat / 100 ∧
      (t.mem.read (s.blockAddr + 1)).toNat = (s.getV x).toNat / 10 % 10 ∧
      (t.mem.read (s.blockAddr + 2)).toNat = (s.getV x).toNat % 10 ∧
      SameMemoryOutside s.blockAddr 3 s t ∧ SameExcept [.memory] s t) ∧
    (s.blockAddr + 2 > 0xFFF → exec (.ldBVx x) s =
      .fault (.memoryBounds (s.pc - 2) (if s.blockAddr > 0xFFF then s.blockAddr else 0x1000)))

/-- 42_index_memory.md R180: `Fx55` stores `V0..Vx` ascending from `I`, adds `x + 1` to `I`, and
changes nothing else; when `I + x` is above 0xFFF it reports the first address that is (decision
D5). -/
def Obligations.StoreBlockCopiesRegistersToMemory : Prop :=
  ∀ (s : State) (x : RegIx),
    (s.blockAddr + x.val ≤ 0xFFF → ∃ t, exec (.ldMemVx x) s = .next t ∧
      (∀ k : RegIx, k ≤ x → t.mem.read (s.blockAddr + k.val) = s.getV k) ∧
      t.I.toNat = s.I.toNat + x.val + 1 ∧
      SameMemoryOutside s.blockAddr (x.val + 1) s t ∧ SameExcept [.memory, .addr] s t) ∧
    (s.blockAddr + x.val > 0xFFF → exec (.ldMemVx x) s =
      .fault (.memoryBounds (s.pc - 2) (if s.blockAddr > 0xFFF then s.blockAddr else 0x1000)))

/-- 42_index_memory.md R182: `Fx65` loads `V0..Vx` ascending from `I`, leaves the registers above
`Vx`, adds `x + 1` to `I`, and changes nothing else; when `I + x` is above 0xFFF it reports the first
address that is (decision D5). -/
def Obligations.LoadBlockCopiesMemoryToRegisters : Prop :=
  ∀ (s : State) (x : RegIx),
    (s.blockAddr + x.val ≤ 0xFFF → ∃ t, exec (.ldVxMem x) s = .next t ∧
      (∀ k : RegIx, k ≤ x → t.getV k = s.mem.read (s.blockAddr + k.val)) ∧
      (∀ k : RegIx, x < k → t.getV k = s.getV k) ∧
      t.I.toNat = s.I.toNat + x.val + 1 ∧ SameExcept [.regs, .addr] s t) ∧
    (s.blockAddr + x.val > 0xFFF → exec (.ldVxMem x) s =
      .fault (.memoryBounds (s.pc - 2) (if s.blockAddr > 0xFFF then s.blockAddr else 0x1000)))

/-- 42_index_memory.md R184 (derived in the spec from R180 and R182): storing `V0..Vx`, then, with any
registers in between and `I` set back, loading the same range gives the original registers, and both
instructions leave `I` at its first value plus `x + 1`. -/
def Obligations.StoreThenLoadBlockRoundTrip : Prop :=
  ∀ (s : State) (x : RegIx) (between : Vector Byte 16), s.I.toNat + x.val ≤ 0xFFF →
    ∃ t u, exec (.ldMemVx x) s = .next t ∧
      exec (.ldVxMem x) { t with V := between, I := s.I } = .next u ∧
      (∀ k : RegIx, k ≤ x → u.getV k = s.getV k) ∧
      t.I.toNat = s.I.toNat + x.val + 1 ∧ u.I.toNat = s.I.toNat + x.val + 1

/-- 20_memory.md R62 (decision D18): each byte `Fx55` or `Fx33` stores is what the very next fetch of its
address reads, as the high byte of a fetch there and as the low byte of a fetch one below, whether or
not the fetched word lies wholly in the block. -/
def Obligations.FetchSeesStoredBytesAtOnce : Prop :=
  (∀ (s : State) (x : RegIx) (a : Word), s.blockAddr + x.val ≤ 0xFFF → a.toNat ≤ 0xFFE →
    ∃ t w, exec (.ldMemVx x) s = .next t ∧ ({ t with pc := a } : State).fetch = .ok w ∧
      (∀ k : RegIx, k ≤ x → a.toNat = s.blockAddr + k.val → highByte w = s.getV k) ∧
      (∀ k : RegIx, k ≤ x → a.toNat + 1 = s.blockAddr + k.val → lowByte w = s.getV k)) ∧
  (∀ (s : State) (x : RegIx) (a : Word), s.blockAddr + 2 ≤ 0xFFF → a.toNat ≤ 0xFFE →
    ∃ t w, exec (.ldBVx x) s = .next t ∧ ({ t with pc := a } : State).fetch = .ok w ∧
      (∀ (k : Nat) (h : k < (bcdDigits (s.getV x)).length), a.toNat = s.blockAddr + k →
        highByte w = (bcdDigits (s.getV x))[k]) ∧
      (∀ (k : Nat) (h : k < (bcdDigits (s.getV x)).length), a.toNat + 1 = s.blockAddr + k →
        lowByte w = (bcdDigits (s.getV x))[k]))

/-! ## Control transfer -/

/-- 40_control_flow.md R110, R124 (odd and unmasked targets: decisions D6, D7): the jumps set `pc` to
`nnn`, and to `nnn + V0`, and change nothing else. -/
def Obligations.JumpsSetOnlyPc : Prop :=
  ∀ (s : State) (nnn : Addr12),
    (∃ t, exec (.jp nnn) s = .next t ∧ t.pc.toNat = nnn.toNat ∧ SameExcept [.pc] s t) ∧
    (∃ t, exec (.jpV0 nnn) s = .next t ∧ t.pc.toNat = nnn.toNat + (s.getV 0).toNat ∧
      SameExcept [.pc] s t)

/-- 40_control_flow.md R114: with fewer than 16 entries `2nnn` pushes the advanced `pc` and jumps; with
16 it raises StackOverflow and reports its own address (decision D9). -/
def Obligations.CallPushesReturnAddress : Prop :=
  ∀ (s : State) (nnn : Addr12),
    (∀ h : s.sp.val < 16, ∃ t, exec (.call nnn) s = .next t ∧
      t.stack[s.sp.val] = s.pc ∧ t.sp.val = s.sp.val + 1 ∧ t.pc.toNat = nnn.toNat ∧
      (∀ (k : Nat) (hk : k < 16), k ≠ s.sp.val → t.stack[k] = s.stack[k]) ∧
      SameExcept [.pc, .stack] s t) ∧
    (s.sp.val = 16 → exec (.call nnn) s = .fault (.stackOverflow (s.pc - 2)))

/-- 40_control_flow.md R112: with an entry on the stack `00EE` pops the newest into `pc`; with none it
raises StackUnderflow and reports its own address (decision D9). The vacated entry is a free value
(10_state.md R26, decision D25; assumption log 6), so nothing is said of it. -/
def Obligations.ReturnPopsIntoPc : Prop :=
  ∀ s : State,
    (∀ (n : Nat) (h : n < 16), s.sp.val = n + 1 → ∃ t, exec .ret s = .next t ∧
      t.pc = s.stack[n] ∧ t.sp.val = n ∧
      (∀ (k : Nat) (hk : k < 16), k ≠ n → t.stack[k] = s.stack[k]) ∧
      SameExcept [.pc, .stack, .pops] s t) ∧
    (s.sp.val = 0 → exec .ret s = .fault (.stackUnderflow (s.pc - 2)))

/-- 40_control_flow.md R114, R112 (a matching `RET` resumes after the `CALL`): whatever a subroutine
does, if it ends with the stack as the call left it, the return goes to the address after the call and
the older return addresses are as before. -/
def Obligations.ReturnUndoesCall : Prop :=
  ∀ (s : State) (nnn : Addr12), s.sp.val < 16 →
    ∃ t, exec (.call nnn) s = .next t ∧
      ∀ body : State, body.stack = t.stack → body.sp = t.sp →
        ∃ u, exec .ret body = .next u ∧ u.pc = s.pc ∧ u.sp = s.sp ∧
          ∀ (k : Nat) (hk : k < 16), k < s.sp.val → u.stack[k] = s.stack[k]

/-- 40_control_flow.md R116, R118: the immediate skips add a further 2 to `pc` (modulo 2^16) exactly
when `Vx = nn`, and when `Vx` differs from `nn`; nothing else changes. -/
def Obligations.ImmediateSkips : Prop :=
  ∀ (s : State) (x : RegIx) (nn : Byte),
    decodeWord (wordXNN 0x3#4 x nn) = .seImm x nn ∧ decodeWord (wordXNN 0x4#4 x nn) = .sneImm x nn ∧
    (∃ t, exec (.seImm x nn) s = .next t ∧ SameExcept [.pc] s t ∧
      t.pc.toNat = if s.getV x = nn then (s.pc.toNat + 2) % 0x10000 else s.pc.toNat) ∧
    (∃ t, exec (.sneImm x nn) s = .next t ∧ SameExcept [.pc] s t ∧
      t.pc.toNat = if s.getV x = nn then s.pc.toNat else (s.pc.toNat + 2) % 0x10000)

/-- 40_control_flow.md R120, R122 (strict decoding: decision D4): the register skips add a further 2 to
`pc` (modulo 2^16) exactly when `Vx = Vy`, and when they differ; nothing else changes. -/
def Obligations.RegisterSkips : Prop :=
  ∀ (s : State) (x y : RegIx),
    (∃ t, exec (.seReg x y) s = .next t ∧ SameExcept [.pc] s t ∧
      t.pc.toNat = if s.getV x = s.getV y then (s.pc.toNat + 2) % 0x10000 else s.pc.toNat) ∧
    (∃ t, exec (.sneReg x y) s = .next t ∧ SameExcept [.pc] s t ∧
      t.pc.toNat = if s.getV x = s.getV y then s.pc.toNat else (s.pc.toNat + 2) % 0x10000)

/-! ## Display -/

/-- 43_display.md R204: `00E0` turns every pixel off and changes nothing else. -/
def Obligations.ClearTurnsEveryPixelOff : Prop :=
  ∀ s : State, decodeWord 0x00E0#16 = .cls ∧
    ∃ t, exec .cls s = .next t ∧ (∀ c r, t.pix.get c r = false) ∧ SameExcept [.display] s t

/-- 43_display.md R203 (derived in the spec from R202): a draw flips exactly the pixels some 1 bit of
the sprite targets, with both coordinates wrapped, and reports a collision exactly when one of them was
on; so the order of the loop of R202 does not matter. -/
def Obligations.DrawFlipsExactlyTheTargetedPixels : Prop :=
  ∀ (x0 y0 : Byte) (sprite : List Byte) (p : Framebuffer), sprite.length ≤ 15 →
    (∀ c r, spriteTargets x0 y0 sprite c r →
      (draw x0 y0 sprite p).pix.get c r = !p.get c r) ∧
    (∀ c r, ¬ spriteTargets x0 y0 sprite c r →
      (draw x0 y0 sprite p).pix.get c r = p.get c r) ∧
    ((draw x0 y0 sprite p).collided = true ↔
      ∃ c r, spriteTargets x0 y0 sprite c r ∧ p.get c r = true)

/-- 43_display.md R210 (VF last: decision D2; the fault: decision D5): `Dxyn` draws the `n` bytes from
`I` at `(Vx, Vy)` as they were on entry, sets VF to the collision, and changes no other register, no
memory and not `I`; when a sprite byte lies above 0xFFF it reports the first that does. -/
def Obligations.DrawInstructionBlitsAndSetsCollision : Prop :=
  ∀ (s : State) (x y : RegIx) (n : RowCount),
    (n.val = 0 ∨ s.I.toNat + (n.val - 1) ≤ 0xFFF → ∃ t, exec (.drw x y n) s = .next t ∧
      (∀ c r, spriteTargets (s.getV x) (s.getV y) (s.spriteBytes n.val) c r →
        t.pix.get c r = !s.pix.get c r) ∧
      (∀ c r, ¬ spriteTargets (s.getV x) (s.getV y) (s.spriteBytes n.val) c r →
        t.pix.get c r = s.pix.get c r) ∧
      (t.getV VF = 1#8 ∨ t.getV VF = 0#8) ∧
      (t.getV VF = 1#8 ↔ ∃ c r,
        spriteTargets (s.getV x) (s.getV y) (s.spriteBytes n.val) c r ∧ s.pix.get c r = true) ∧
      SameRegsExcept [VF] s t ∧ SameExcept [.regs, .display] s t) ∧
    (0 < n.val → s.I.toNat + (n.val - 1) > 0xFFF → exec (.drw x y n) s =
      .fault (.memoryBounds (s.pc - 2) (if s.I.toNat > 0xFFF then s.I.toNat else 0x1000)))

/-- 43_display.md R212 (derived in the spec from R202 and R210): drawing the same sprite twice at the
same coordinates restores every pixel, and the second draw sets VF = 1 exactly when the first turned
an off pixel on. -/
def Obligations.DrawIsSelfInverse : Prop :=
  ∀ (s t : State) (x y : RegIx) (n : RowCount), exec (.drw x y n) s = .next t →
    ∃ u, exec (.drw x y n) { t with V := s.V } = .next u ∧
      (∀ c r, u.pix.get c r = s.pix.get c r) ∧
      (u.getV VF = 1#8 ↔ ∃ c r, s.pix.get c r = false ∧ t.pix.get c r = true)

/-! ## Keypad and timers -/

/-- 44_timers_keypad.md R234, R236: with a key index in `Vx` the key skips add a further 2 to `pc`
exactly when the key is down, and when it is up; nothing else changes. With `Vx` above 0x0F they raise
KeyIndexRange and record `Vx` (decision D8). -/
def Obligations.KeySkipsTestTheLevel : Prop :=
  ∀ (s : State) (x : RegIx),
    (∀ h : (s.getV x).toNat < 16,
      (∃ t, exec (.skp x) s = .next t ∧ SameExcept [.pc] s t ∧
        t.pc = if s.key[(s.getV x).toNat] = true then s.pc + 2 else s.pc) ∧
      (∃ t, exec (.sknp x) s = .next t ∧ SameExcept [.pc] s t ∧
        t.pc = if s.key[(s.getV x).toNat] = true then s.pc else s.pc + 2)) ∧
    ((s.getV x).toNat > 0xF →
      exec (.skp x) s = .fault (.keyIndexRange (s.pc - 2) (s.getV x)) ∧
      exec (.sknp x) s = .fault (.keyIndexRange (s.pc - 2) (s.getV x)))

/-- 44_timers_keypad.md R240: with a key down `Fx0A` stores the lowest index of one and goes on;
with none down it sets `pc` back by 2. Nothing else changes. -/
def Obligations.KeyWaitStoresLowestKeyOrRewinds : Prop :=
  ∀ (s : State) (x : RegIx),
    decodeWord (wordXNN 0xF#4 x 0x0A#8) = .ldVxK x ∧
    (∀ (k : Nat) (h : k < 16), s.key[k] = true → (∀ (j : Nat) (hj : j < k), s.key[j] = false) →
      ∃ t, exec (.ldVxK x) s = .next t ∧ (t.getV x).toNat = k ∧
        SameRegsExcept [x] s t ∧ SameExcept [.regs] s t) ∧
    ((∀ (j : Nat) (hj : j < 16), s.key[j] = false) →
      ∃ t, exec (.ldVxK x) s = .next t ∧ t.pc = s.pc - 2 ∧ SameExcept [.pc] s t)

/-- 44_timers_keypad.md R240: the step of a waiting `Fx0A` is a net no-op: the whole state is as
before, so the next step fetches the same word. -/
def Obligations.WaitingStepChangesNothing : Prop :=
  ∀ (s : State) (x : RegIx), s.status = .running → s.pc.toNat ≤ 0xFFE →
    decodeWord s.wordAtPc = .ldVxK x → (∀ (j : Nat) (hj : j < 16), s.key[j] = false) →
    step s = .next s

/-- 44_timers_keypad.md R238, R242, R244: `Fx07` reads DT into `Vx`, `Fx15` writes `Vx` to DT, `Fx18`
writes `Vx` to ST; nothing else changes. -/
def Obligations.TimerInstructionsMoveOneByte : Prop :=
  ∀ (s : State) (x : RegIx),
    decodeWord (wordXNN 0xF#4 x 0x07#8) = .ldVxDT x ∧
    decodeWord (wordXNN 0xF#4 x 0x15#8) = .ldDTVx x ∧
    decodeWord (wordXNN 0xF#4 x 0x18#8) = .ldSTVx x ∧
    (∃ t, exec (.ldVxDT x) s = .next t ∧ t.getV x = s.DT ∧ SameRegsExcept [x] s t ∧
      SameExcept [.regs] s t) ∧
    (∃ t, exec (.ldDTVx x) s = .next t ∧ t.DT = s.getV x ∧ SameExcept [.delay] s t) ∧
    (∃ t, exec (.ldSTVx x) s = .next t ∧ t.ST = s.getV x ∧ SameExcept [.sound] s t)

/-- 44_timers_keypad.md R246, R247: a tick lowers each timer by one, floored at 0, and changes nothing
else; the sound flag is on exactly while ST is above 0. -/
def Obligations.TickCountsDownToZero : Prop :=
  ∀ s : State, s.status = .running →
    s.shouldPlaySound = some (decide (s.ST.toNat > 0)) ∧
    ∃ t, s.tick = some t ∧ t.DT.toNat = s.DT.toNat - 1 ∧ t.ST.toNat = s.ST.toNat - 1 ∧
      SameExcept [.delay, .sound] s t

/-- 44_timers_keypad.md R250, R252 (the host's duty: decision D21): `set_key` sets the level of one key
of a running core, which a query then reads; the other keys and all other state are as before; an index
above 15 is no move (assumption log 7). -/
def Obligations.SetKeySetsOneKey : Prop :=
  ∀ (s : State) (k : Nat) (down : Bool), s.status = .running →
    (k < 16 → ∃ t, s.setKey k down = some t ∧ t.queryKey k = some down ∧
      (∀ j, j ≠ k → t.queryKey j = s.queryKey j) ∧ SameExcept [.keypad] s t) ∧
    (16 ≤ k → s.setKey k down = none ∧ s.queryKey k = none)

/-- 43_display.md R206, R214: in range, `set_pixel` sets one pixel of a running core, which `get_pixel`
and the framebuffer then read; the others and all other state are as before. A call out of range breaks
the host's duty (decision D21) and is no move (assumption log 7). -/
def Obligations.SetPixelSetsOnePixel : Prop :=
  ∀ (s : State) (c r : Nat) (b : Bool), s.status = .running →
    (c < 64 → r < 32 → ∃ t, s.setPixel c r b = some t ∧ t.getPixel c r = some b ∧
      (∀ c' r', ¬ (c' = c ∧ r' = r) → t.getPixel c' r' = s.getPixel c' r') ∧
      t.readFramebuffer = some t.pix ∧ SameExcept [.display] s t) ∧
    (64 ≤ c ∨ 32 ≤ r → s.setPixel c r b = none ∧ s.getPixel c r = none)

/-! ## Whole-machine rules -/

/-- 10_state.md R22, R25 to R31, 20_memory.md R57: every instruction that goes on changes only the
parts of the state the lists give it; in particular only `00E0` and `Dxyn` change pixels, only `2nnn`
and `00EE` the stack, only `Fx33` and `Fx55` memory, and none a key. -/
def Obligations.InstructionsChangeOnlyTheirParts : Prop :=
  ∀ (i : Instr) (s t : State), exec i s = .next t → SameExcept (mayChange i) s t

/-- 10_state.md R22, R23 (decisions D2, D3): an instruction writes no register but its destination and,
if it is one of the six flag writers, VF. -/
def Obligations.RegistersWrittenOnlyByDestinationAndFlag : Prop :=
  ∀ (i : Instr) (s t : State) (k : RegIx), exec i s = .next t → ¬ mayWrite i k → t.getV k = s.getV k

/-- 20_memory.md R57 (derived in the spec from the instruction rules): the only bytes of memory an
instruction changes are the three from `I` on for `Fx33` and the `x + 1` from `I` on for `Fx55`. -/
def Obligations.MemoryWrittenOnlyInTheBlockAtI : Prop :=
  ∀ (i : Instr) (s t : State) (a : Nat), exec i s = .next t →
    (match i with
      | .ldBVx _ => a < s.blockAddr ∨ s.blockAddr + 3 ≤ a
      | .ldMemVx x => a < s.blockAddr ∨ s.blockAddr + (x.val + 1) ≤ a
      | _ => True) →
    t.mem.read a = s.mem.read a

/-- 10_state.md R27, R33: no instruction reads the sound timer: two states that differ only in ST go
through the same instruction in the same way, and stay different only in ST (`Fx18` overwrites it). -/
def Obligations.NoInstructionReadsTheSoundTimer : Prop :=
  ∀ (i : Instr) (s : State) (b : Byte),
    exec i (s.setST b) =
      mapNext (fun t => match i with | .ldSTVx _ => t | _ => t.setST b) (exec i s)

/-- 10_state.md R31, R33: only `Ex9E`, `ExA1` and `Fx0A` read the keypad: every other instruction acts
the same whatever keys are down. -/
def Obligations.OnlyThreeInstructionsReadTheKeypad : Prop :=
  ∀ (i : Instr) (s : State) (keys : Vector Bool 16),
    (∀ x, i ≠ .skp x) → (∀ x, i ≠ .sknp x) → (∀ x, i ≠ .ldVxK x) →
    exec i { s with key := keys } = mapNext (fun t => { t with key := keys }) (exec i s)

/-- 10_state.md R26 (decision D25): a stack entry at or above `sp` is not readable by any instruction:
two states that differ only there take the same step, and differ at most there again. -/
def Obligations.VacatedStackEntriesAreUnobservable : Prop :=
  ∀ (i : Instr) (s s' : State), SameLiveStack s s' →
    (∀ f, exec i s = .fault f → exec i s' = .fault f) ∧
    (∀ t, exec i s = .next t → ∃ t', exec i s' = .next t' ∧ SameLiveStack t t')
end

