-- ==== Sys2Proof/Laws/Decode.lean ====
section
/-!
SUPPORT. The fields of a word as numbers (30_encoding.md R82), the words the encoder writes as
numbers, and so each field of an encoded word and a word rebuilt from its fields.
-/

namespace Sys2Proof

variable (a b c d : BitVec 4) (x y : RegIx) (nn : Byte) (nnn : Addr12) (w : Word)

/-! ## Fields as numbers -/

theorem toNat_fieldTop : (fieldTop w).toNat = w.toNat / 4096 := by
  have := w.isLt
  simp only [fieldTop, BitVec.extractLsb'_toNat, Nat.shiftRight_eq_div_pow]; omega

theorem val_fieldX : (fieldX w).val = w.toNat / 256 % 16 := by
  simp [fieldX, Nat.shiftRight_eq_div_pow]

theorem val_fieldY : (fieldY w).val = w.toNat / 16 % 16 := by
  simp [fieldY, Nat.shiftRight_eq_div_pow]

theorem toNat_fieldN : (fieldN w).toNat = w.toNat % 16 := by simp [fieldN]

theorem toNat_fieldNN : (fieldNN w).toNat = w.toNat % 256 := by simp [fieldNN]

theorem toNat_fieldNNN : (fieldNNN w).toNat = w.toNat % 4096 := by simp [fieldNNN]

theorem toNat_highByte : (highByte w).toNat = w.toNat / 256 := by
  have := w.isLt
  simp only [highByte, BitVec.extractLsb'_toNat, Nat.shiftRight_eq_div_pow]; omega

theorem toNat_lowByte : (lowByte w).toNat = w.toNat % 256 := by simp [lowByte]

/-! ## Encoded words as numbers -/

/-- Concatenation as arithmetic (00_scope.md R7). -/
theorem toNat_append_eq {m n : Nat} (u : BitVec m) (v : BitVec n) :
    (u ++ v).toNat = u.toNat * 2 ^ n + v.toNat := by
  rw [BitVec.toNat_append, ← Nat.shiftLeft_add_eq_or_of_lt v.isLt, Nat.shiftLeft_eq]

theorem toNat_wordNNN : (wordNNN a nnn).toNat = a.toNat * 4096 + nnn.toNat :=
  toNat_append_eq a nnn

theorem toNat_wordXNN : (wordXNN a x nn).toNat = a.toNat * 4096 + x.val * 256 + nn.toNat := by
  have h := toNat_append_eq (a ++ (BitVec.ofFin x : BitVec 4)) nn
  have h' := toNat_append_eq a (BitVec.ofFin x : BitVec 4)
  have hx : (BitVec.ofFin x : BitVec 4).toNat = x.val := rfl
  refine h.trans ?_
  rw [h', hx]; omega

theorem toNat_word4 :
    (word4 a b c d).toNat = a.toNat * 4096 + b.toNat * 256 + c.toNat * 16 + d.toNat := by
  have h := toNat_append_eq ((a ++ b) ++ c) d
  have h' := toNat_append_eq (a ++ b) c
  have h'' := toNat_append_eq a b
  refine h.trans ?_
  rw [h', h'']; omega

theorem toNat_wordXYN :
    (wordXYN a x y d).toNat = a.toNat * 4096 + x.val * 256 + y.val * 16 + d.toNat := by
  rw [wordXYN, toNat_word4]; simp

/-- The value of an opcode from its bytes (20_memory.md R52: `hi * 256 + lo`). -/
theorem toNat_joinBytes (hi lo : Byte) : (joinBytes hi lo).toNat = hi.toNat * 256 + lo.toNat :=
  toNat_append_eq hi lo

/-! ## Fields of an encoded word -/

@[simp] theorem fieldTop_wordNNN : fieldTop (wordNNN a nnn) = a := by
  apply BitVec.eq_of_toNat_eq
  have := nnn.isLt
  rw [toNat_fieldTop, toNat_wordNNN]; omega

@[simp] theorem fieldNNN_wordNNN : fieldNNN (wordNNN a nnn) = nnn := by
  apply BitVec.eq_of_toNat_eq
  have := nnn.isLt
  rw [toNat_fieldNNN, toNat_wordNNN]; omega

@[simp] theorem fieldTop_wordXNN : fieldTop (wordXNN a x nn) = a := by
  apply BitVec.eq_of_toNat_eq
  have := nn.isLt
  rw [toNat_fieldTop, toNat_wordXNN]; omega

@[simp] theorem fieldX_wordXNN : fieldX (wordXNN a x nn) = x := by
  apply Fin.ext
  have := nn.isLt
  rw [val_fieldX, toNat_wordXNN]; omega

@[simp] theorem fieldNN_wordXNN : fieldNN (wordXNN a x nn) = nn := by
  apply BitVec.eq_of_toNat_eq
  have := nn.isLt
  rw [toNat_fieldNN, toNat_wordXNN]; omega

@[simp] theorem fieldTop_wordXYN : fieldTop (wordXYN a x y d) = a := by
  apply BitVec.eq_of_toNat_eq
  have := d.isLt
  rw [toNat_fieldTop, toNat_wordXYN]; omega

@[simp] theorem fieldX_wordXYN : fieldX (wordXYN a x y d) = x := by
  apply Fin.ext
  have := d.isLt
  rw [val_fieldX, toNat_wordXYN]; omega

@[simp] theorem fieldY_wordXYN : fieldY (wordXYN a x y d) = y := by
  apply Fin.ext
  have := d.isLt
  rw [val_fieldY, toNat_wordXYN]; omega

@[simp] theorem fieldN_wordXYN : fieldN (wordXYN a x y d) = d := by
  apply BitVec.eq_of_toNat_eq
  have := d.isLt
  rw [toNat_fieldN, toNat_wordXYN]; omega

/-! ## A word from its fields -/

theorem wordNNN_fields : wordNNN (fieldTop w) (fieldNNN w) = w := by
  apply BitVec.eq_of_toNat_eq
  rw [toNat_wordNNN, toNat_fieldTop, toNat_fieldNNN]; omega

theorem wordXNN_fields : wordXNN (fieldTop w) (fieldX w) (fieldNN w) = w := by
  apply BitVec.eq_of_toNat_eq
  rw [toNat_wordXNN, toNat_fieldTop, val_fieldX, toNat_fieldNN]; omega

theorem wordXYN_fields : wordXYN (fieldTop w) (fieldX w) (fieldY w) (fieldN w) = w := by
  apply BitVec.eq_of_toNat_eq
  rw [toNat_wordXYN, toNat_fieldTop, val_fieldX, val_fieldY, toNat_fieldN]; omega

@[simp] theorem highByte_joinBytes (hi lo : Byte) : highByte (joinBytes hi lo) = hi := by
  apply BitVec.eq_of_toNat_eq
  have := lo.isLt
  rw [toNat_highByte, toNat_joinBytes]; omega

@[simp] theorem lowByte_joinBytes (hi lo : Byte) : lowByte (joinBytes hi lo) = lo := by
  apply BitVec.eq_of_toNat_eq
  have := lo.isLt
  rw [toNat_lowByte, toNat_joinBytes]; omega

theorem joinBytes_highByte_lowByte : joinBytes (highByte w) (lowByte w) = w := by
  apply BitVec.eq_of_toNat_eq
  rw [toNat_joinBytes, toNat_highByte, toNat_lowByte]; omega

/-- Decoding the two bytes of a word is decoding the word. -/
theorem decodeBytes_wordBytes (rest : List Byte) :
    decodeBytes (wordBytes w ++ rest) = .ok (decodeWord w, rest) := by
  simp [wordBytes, decodeBytes, joinBytes_highByte_lowByte]

/-! ## Masks (30_encoding.md R85) -/

/-- The word of a word's four nibbles is the word. -/
theorem word4_nibbles : word4 (fieldTop w) (BitVec.ofFin (fieldX w)) (BitVec.ofFin (fieldY w)) (fieldN w) = w :=
  wordXYN_fields w

/-- Masking acts nibble by nibble. -/
theorem word4_and (e f g h : BitVec 4) :
    word4 a b c d &&& word4 e f g h = word4 (a &&& e) (b &&& f) (c &&& g) (d &&& h) := by
  unfold word4
  exact (BitVec.and_append (x₁ := (a ++ b) ++ c) (x₂ := (e ++ f) ++ g) (y₁ := d) (y₂ := h)).trans
    (by rw [BitVec.and_append, BitVec.and_append])

theorem and_F (a : BitVec 4) : a &&& 0xF = a := by revert a; decide

theorem and_0 (a : BitVec 4) : a &&& 0 = 0 := by revert a; decide

/-- The mask `0xF000` keeps the family. -/
theorem and_F000 : w &&& 0xF000 = wordNNN (fieldTop w) 0 := by
  conv_lhs => rw [← word4_nibbles w, show (0xF000 : Word) = word4 0xF 0 0 0 from rfl, word4_and,
    and_F, and_0, and_0, and_0]
  apply BitVec.eq_of_toNat_eq
  have h0 : (0 : BitVec 4).toNat = 0 := rfl
  have h1 : (0 : Addr12).toNat = 0 := rfl
  rw [toNat_word4, toNat_wordNNN, h0, h1]

/-- The mask `0xF00F` keeps the family and the sub-function nibble. -/
theorem and_F00F : w &&& 0xF00F = wordXYN (fieldTop w) 0 0 (fieldN w) := by
  conv_lhs => rw [← word4_nibbles w, show (0xF00F : Word) = word4 0xF 0 0 0xF from rfl, word4_and,
    and_F, and_F, and_0, and_0]
  apply BitVec.eq_of_toNat_eq
  have h0 : (0 : BitVec 4).toNat = 0 := rfl
  rw [toNat_word4, toNat_wordXYN, h0, Fin.val_zero]

/-- The mask `0xF0FF` keeps the family and the sub-function byte. -/
theorem and_F0FF : w &&& 0xF0FF = wordXNN (fieldTop w) 0 (fieldNN w) := by
  conv_lhs => rw [← word4_nibbles w, show (0xF0FF : Word) = word4 0xF 0 0xF 0xF from rfl, word4_and,
    and_F, and_F, and_F, and_0]
  apply BitVec.eq_of_toNat_eq
  have hy : (BitVec.ofFin (fieldY w) : BitVec 4).toNat = w.toNat / 16 % 16 := val_fieldY w
  have h0 : (0 : BitVec 4).toNat = 0 := rfl
  rw [toNat_word4, toNat_wordXNN, toNat_fieldNN, hy, toNat_fieldN, h0, Fin.val_zero]
  omega

/-- Two words are equal exactly when their nibbles are. -/
theorem word4_inj {a b c d e f g h : BitVec 4} :
    word4 a b c d = word4 e f g h ↔ a = e ∧ b = f ∧ c = g ∧ d = h := by
  constructor
  · intro q
    have hn : a.toNat * 4096 + b.toNat * 256 + c.toNat * 16 + d.toNat =
        e.toNat * 4096 + f.toNat * 256 + g.toNat * 16 + h.toNat := by
      rw [← toNat_word4, q, toNat_word4]
    have := b.isLt; have := c.isLt; have := d.isLt
    have := f.isLt; have := g.isLt; have := h.isLt
    refine ⟨?_, ?_, ?_, ?_⟩ <;> apply BitVec.eq_of_toNat_eq <;> omega
  · rintro ⟨rfl, rfl, rfl, rfl⟩; rfl

end Sys2Proof
end

