-- ==== Sys2Proof/Laws/State.lean ====
section
/-!
SUPPORT. One lemma per field per update of the state, each true by `rfl`, so that no later proof
unfolds a record update; and what a register reads as after each update.
-/

namespace Sys2Proof.Machine

variable (s : State)

/-! ## `setV` -/

@[simp] theorem State.setV_V (x : RegIx) (b : Byte) : (s.setV x b).V = s.V.set x b := rfl
@[simp] theorem State.setV_I (x : RegIx) (b : Byte) : (s.setV x b).I = s.I := rfl
@[simp] theorem State.setV_pc (x : RegIx) (b : Byte) : (s.setV x b).pc = s.pc := rfl
@[simp] theorem State.setV_stack (x : RegIx) (b : Byte) : (s.setV x b).stack = s.stack := rfl
@[simp] theorem State.setV_sp (x : RegIx) (b : Byte) : (s.setV x b).sp = s.sp := rfl
@[simp] theorem State.setV_DT (x : RegIx) (b : Byte) : (s.setV x b).DT = s.DT := rfl
@[simp] theorem State.setV_ST (x : RegIx) (b : Byte) : (s.setV x b).ST = s.ST := rfl
@[simp] theorem State.setV_mem (x : RegIx) (b : Byte) : (s.setV x b).mem = s.mem := rfl
@[simp] theorem State.setV_pix (x : RegIx) (b : Byte) : (s.setV x b).pix = s.pix := rfl
@[simp] theorem State.setV_key (x : RegIx) (b : Byte) : (s.setV x b).key = s.key := rfl
@[simp] theorem State.setV_status (x : RegIx) (b : Byte) : (s.setV x b).status = s.status := rfl
@[simp] theorem State.setV_draws (x : RegIx) (b : Byte) : (s.setV x b).draws = s.draws := rfl
@[simp] theorem State.setV_pops (x : RegIx) (b : Byte) : (s.setV x b).pops = s.pops := rfl

/-! ## `setI` -/

@[simp] theorem State.setI_V (w : Word) : (s.setI w).V = s.V := rfl
@[simp] theorem State.setI_I (w : Word) : (s.setI w).I = w := rfl
@[simp] theorem State.setI_pc (w : Word) : (s.setI w).pc = s.pc := rfl
@[simp] theorem State.setI_stack (w : Word) : (s.setI w).stack = s.stack := rfl
@[simp] theorem State.setI_sp (w : Word) : (s.setI w).sp = s.sp := rfl
@[simp] theorem State.setI_DT (w : Word) : (s.setI w).DT = s.DT := rfl
@[simp] theorem State.setI_ST (w : Word) : (s.setI w).ST = s.ST := rfl
@[simp] theorem State.setI_mem (w : Word) : (s.setI w).mem = s.mem := rfl
@[simp] theorem State.setI_pix (w : Word) : (s.setI w).pix = s.pix := rfl
@[simp] theorem State.setI_key (w : Word) : (s.setI w).key = s.key := rfl
@[simp] theorem State.setI_status (w : Word) : (s.setI w).status = s.status := rfl
@[simp] theorem State.setI_draws (w : Word) : (s.setI w).draws = s.draws := rfl
@[simp] theorem State.setI_pops (w : Word) : (s.setI w).pops = s.pops := rfl

/-! ## `setDT` -/

@[simp] theorem State.setDT_V (b : Byte) : (s.setDT b).V = s.V := rfl
@[simp] theorem State.setDT_I (b : Byte) : (s.setDT b).I = s.I := rfl
@[simp] theorem State.setDT_pc (b : Byte) : (s.setDT b).pc = s.pc := rfl
@[simp] theorem State.setDT_stack (b : Byte) : (s.setDT b).stack = s.stack := rfl
@[simp] theorem State.setDT_sp (b : Byte) : (s.setDT b).sp = s.sp := rfl
@[simp] theorem State.setDT_DT (b : Byte) : (s.setDT b).DT = b := rfl
@[simp] theorem State.setDT_ST (b : Byte) : (s.setDT b).ST = s.ST := rfl
@[simp] theorem State.setDT_mem (b : Byte) : (s.setDT b).mem = s.mem := rfl
@[simp] theorem State.setDT_pix (b : Byte) : (s.setDT b).pix = s.pix := rfl
@[simp] theorem State.setDT_key (b : Byte) : (s.setDT b).key = s.key := rfl
@[simp] theorem State.setDT_status (b : Byte) : (s.setDT b).status = s.status := rfl
@[simp] theorem State.setDT_draws (b : Byte) : (s.setDT b).draws = s.draws := rfl
@[simp] theorem State.setDT_pops (b : Byte) : (s.setDT b).pops = s.pops := rfl

/-! ## `setST` -/

@[simp] theorem State.setST_V (b : Byte) : (s.setST b).V = s.V := rfl
@[simp] theorem State.setST_I (b : Byte) : (s.setST b).I = s.I := rfl
@[simp] theorem State.setST_pc (b : Byte) : (s.setST b).pc = s.pc := rfl
@[simp] theorem State.setST_stack (b : Byte) : (s.setST b).stack = s.stack := rfl
@[simp] theorem State.setST_sp (b : Byte) : (s.setST b).sp = s.sp := rfl
@[simp] theorem State.setST_DT (b : Byte) : (s.setST b).DT = s.DT := rfl
@[simp] theorem State.setST_ST (b : Byte) : (s.setST b).ST = b := rfl
@[simp] theorem State.setST_mem (b : Byte) : (s.setST b).mem = s.mem := rfl
@[simp] theorem State.setST_pix (b : Byte) : (s.setST b).pix = s.pix := rfl
@[simp] theorem State.setST_key (b : Byte) : (s.setST b).key = s.key := rfl
@[simp] theorem State.setST_status (b : Byte) : (s.setST b).status = s.status := rfl
@[simp] theorem State.setST_draws (b : Byte) : (s.setST b).draws = s.draws := rfl
@[simp] theorem State.setST_pops (b : Byte) : (s.setST b).pops = s.pops := rfl

/-! ## `setPc` -/

@[simp] theorem State.setPc_V (w : Word) : (s.setPc w).V = s.V := rfl
@[simp] theorem State.setPc_I (w : Word) : (s.setPc w).I = s.I := rfl
@[simp] theorem State.setPc_pc (w : Word) : (s.setPc w).pc = w := rfl
@[simp] theorem State.setPc_stack (w : Word) : (s.setPc w).stack = s.stack := rfl
@[simp] theorem State.setPc_sp (w : Word) : (s.setPc w).sp = s.sp := rfl
@[simp] theorem State.setPc_DT (w : Word) : (s.setPc w).DT = s.DT := rfl
@[simp] theorem State.setPc_ST (w : Word) : (s.setPc w).ST = s.ST := rfl
@[simp] theorem State.setPc_mem (w : Word) : (s.setPc w).mem = s.mem := rfl
@[simp] theorem State.setPc_pix (w : Word) : (s.setPc w).pix = s.pix := rfl
@[simp] theorem State.setPc_key (w : Word) : (s.setPc w).key = s.key := rfl
@[simp] theorem State.setPc_status (w : Word) : (s.setPc w).status = s.status := rfl
@[simp] theorem State.setPc_draws (w : Word) : (s.setPc w).draws = s.draws := rfl
@[simp] theorem State.setPc_pops (w : Word) : (s.setPc w).pops = s.pops := rfl

/-! ## `fillV` -/

@[simp] theorem State.fillV_V (bs : List Byte) : (s.fillV bs).V = fillRegs s.V 0 bs := rfl
@[simp] theorem State.fillV_I (bs : List Byte) : (s.fillV bs).I = s.I := rfl
@[simp] theorem State.fillV_pc (bs : List Byte) : (s.fillV bs).pc = s.pc := rfl
@[simp] theorem State.fillV_stack (bs : List Byte) : (s.fillV bs).stack = s.stack := rfl
@[simp] theorem State.fillV_sp (bs : List Byte) : (s.fillV bs).sp = s.sp := rfl
@[simp] theorem State.fillV_DT (bs : List Byte) : (s.fillV bs).DT = s.DT := rfl
@[simp] theorem State.fillV_ST (bs : List Byte) : (s.fillV bs).ST = s.ST := rfl
@[simp] theorem State.fillV_mem (bs : List Byte) : (s.fillV bs).mem = s.mem := rfl
@[simp] theorem State.fillV_pix (bs : List Byte) : (s.fillV bs).pix = s.pix := rfl
@[simp] theorem State.fillV_key (bs : List Byte) : (s.fillV bs).key = s.key := rfl
@[simp] theorem State.fillV_status (bs : List Byte) : (s.fillV bs).status = s.status := rfl
@[simp] theorem State.fillV_draws (bs : List Byte) : (s.fillV bs).draws = s.draws := rfl
@[simp] theorem State.fillV_pops (bs : List Byte) : (s.fillV bs).pops = s.pops := rfl

/-! ## Updates that are one of these -/

@[simp] theorem State.advancePc_eq : s.advancePc = s.setPc (s.pc + 2) := rfl
@[simp] theorem State.rewindPc_eq : s.rewindPc = s.setPc (s.pc - 2) := rfl
@[simp] theorem State.skipIf_true : s.skipIf true = s.setPc (s.pc + 2) := rfl
@[simp] theorem State.skipIf_false : s.skipIf false = s := rfl
@[simp] theorem State.setFlag_eq (c : Bool) : s.setFlag c = s.setV VF (flagByte c) := rfl
@[simp] theorem State.setResultFlag_eq (x : RegIx) (b : Byte) (c : Bool) :
    s.setResultFlag x b c = (s.setV x b).setV VF (flagByte c) := rfl
@[simp] theorem State.afterRnd_eq (x : RegIx) (nn r : Byte) : s.afterRnd x nn r = s.setV x (r &&& nn) := rfl
@[simp] theorem State.afterDraw_eq (d : Drawn) :
    s.afterDraw d = ({ s with pix := d.pix } : State).setV VF (flagByte d.collided) := rfl
@[simp] theorem State.enterHalted_status (f : Fault) : (s.enterHalted f).status = .halted f := rfl

/-! ## Registers -/

@[simp] theorem State.getV_setI (w : Word) (k : RegIx) : (s.setI w).getV k = s.getV k := rfl
@[simp] theorem State.getV_setDT (b : Byte) (k : RegIx) : (s.setDT b).getV k = s.getV k := rfl
@[simp] theorem State.getV_setST (b : Byte) (k : RegIx) : (s.setST b).getV k = s.getV k := rfl
@[simp] theorem State.getV_setPc (w : Word) (k : RegIx) : (s.setPc w).getV k = s.getV k := rfl

/-- A register reads as the last value written to it, and a write leaves every other register. -/
@[simp] theorem State.getV_setV (x k : RegIx) (b : Byte) :
    (s.setV x b).getV k = if k = x then b else s.getV k := by
  simp only [State.getV, State.setV, Fin.getElem_fin, Vector.getElem_set, Fin.ext_iff, eq_comm]

@[simp] theorem flagByte_true : flagByte true = 1#8 := rfl
@[simp] theorem flagByte_false : flagByte false = 0#8 := rfl

end Sys2Proof.Machine
end

