-- ==== Sys2Proof/Laws/Draw.lean ====
section
/-!
SUPPORT. The laws of the framebuffer, and what one bit and one row of a draw do (43_display.md R202).
-/

namespace Sys2Proof.Machine

variable {p : Framebuffer} {c c' : Fin 64} {r r' : Fin 32} {b : Bool} {d : Drawn}

/-- A pixel reads as last put, and a put leaves every other pixel. -/
@[simp] theorem Framebuffer.get_put :
    (p.put c r b).get c' r' = if c' = c ∧ r' = r then b else p.get c' r' := by
  simp only [get, put, Fin.getElem_fin, Vector.getElem_set, Fin.ext_iff]
  by_cases hr : r'.val = r.val
  · simp only [hr, if_true, and_true, Vector.getElem_set, eq_comm]
  · simp only [hr, and_false, if_false, if_neg fun h => hr (Eq.symm h)]

@[simp] theorem Framebuffer.get_clear : Framebuffer.clear.get c r = false := by
  simp [get, clear]

/-- Framebuffers that agree pixel by pixel are equal. -/
theorem Framebuffer.eq_of_get {q : Framebuffer} (h : ∀ c r, p.get c r = q.get c r) : p = q := by
  apply Vector.ext
  intro j hj
  apply Vector.ext
  intro k hk
  exact h ⟨k, hk⟩ ⟨j, hj⟩

/-- A 0 bit does nothing. -/
@[simp] theorem drawBit_false : drawBit c r false d = d := rfl

/-- A 1 bit flips its pixel and notes whether it was on. -/
theorem drawBit_true :
    drawBit c r true d = ⟨d.pix.put c r (!d.pix.get c r), d.collided || d.pix.get c r⟩ := rfl

theorem get_drawBit : (drawBit c r b d).pix.get c' r' =
    (d.pix.get c' r' ^^ (b && decide (c' = c ∧ r' = r))) := by
  cases b with
  | false => simp
  | true =>
    rw [drawBit_true]
    simp only [Framebuffer.get_put, Bool.true_and]
    split
    · next h => rw [h.1, h.2]; simp
    · next h => simp [h]

theorem collided_drawBit : (drawBit c r b d).collided = (d.collided || (b && d.pix.get c r)) := by
  cases b with
  | false => simp
  | true => rw [drawBit_true]; simp

/-- Distinct columns of one sprite row target distinct pixels (43_display.md R203). -/
theorem wrapColumn_inj {x0 : Byte} {j k : Nat} (hj : j < 8) (hk : k < 8)
    (h : wrapColumn x0 j = wrapColumn x0 k) : j = k := by
  simp only [wrapColumn, Fin.ext_iff, Fin.val_ofNat] at h
  omega

/-- Distinct rows of one sprite target distinct pixel rows (43_display.md R203). -/
theorem wrapRow_inj {y0 : Byte} {j k : Nat} (hj : j < 15) (hk : k < 15)
    (h : wrapRow y0 j = wrapRow y0 k) : j = k := by
  simp only [wrapRow, Fin.ext_iff, Fin.val_ofNat] at h
  omega

/-- Drawing some columns of a row. -/
theorem foldl_drawBit {x0 : Byte} {bits : Byte} (cols : List Nat) (hn : cols.Nodup)
    (hlt : ∀ k ∈ cols, k < 8) (d : Drawn) (c : Fin 64) (q : Fin 32) :
    let e := cols.foldl (fun d k => drawBit (wrapColumn x0 k) r (bits.getLsbD (7 - k)) d) d
    (e.pix.get c q = (d.pix.get c q ^^
      decide (q = r ∧ ∃ k ∈ cols, bits.getLsbD (7 - k) = true ∧ wrapColumn x0 k = c))) ∧
    (e.collided = true ↔ d.collided = true ∨
      ∃ k ∈ cols, bits.getLsbD (7 - k) = true ∧ d.pix.get (wrapColumn x0 k) r = true) := by
  induction cols generalizing d with
  | nil => simp
  | cons k cols ih =>
    obtain ⟨hk, hn⟩ := List.nodup_cons.1 hn
    have hk8 : k < 8 := hlt k (by simp)
    obtain ⟨ihp, ihc⟩ := ih hn (fun j hj => hlt j (by simp [hj]))
      (drawBit (wrapColumn x0 k) r (bits.getLsbD (7 - k)) d)
    simp only [List.foldl_cons]
    constructor
    · rw [ihp, get_drawBit]
      by_cases hq : q = r
      · by_cases hck : wrapColumn x0 k = c
        · have hno : ¬ ∃ j ∈ cols, bits.getLsbD (7 - j) = true ∧ wrapColumn x0 j = c := by
            rintro ⟨j, hj, -, he⟩
            exact hk ((wrapColumn_inj (hlt j (by simp [hj])) hk8 (he.trans hck.symm)) ▸ hj)
          subst hck
          subst hq
          simp only [List.mem_cons, exists_eq_or_imp, hno, or_false, and_false, decide_false,
            Bool.xor_false, and_self, decide_true, Bool.and_true, and_true, true_and,
            Bool.decide_eq_true]
        · simp only [List.mem_cons, exists_eq_or_imp, hck, Ne.symm hck, and_false, false_or,
            false_and, decide_false, Bool.and_false, Bool.xor_false]
      · simp [hq]
    · rw [ihc, collided_drawBit]
      simp only [Bool.or_eq_true, Bool.and_eq_true, List.mem_cons, exists_eq_or_imp, or_assoc]
      refine or_congr_right (or_congr_right (exists_congr fun j => ?_))
      refine and_congr_right fun hj => and_congr_right fun _ => ?_
      have hne : wrapColumn x0 j ≠ wrapColumn x0 k := fun he =>
        hk ((wrapColumn_inj (hlt j (by simp [hj])) hk8 he) ▸ hj)
      rw [get_drawBit]
      simp [hne]

/-- One row of a sprite flips the pixels its 1 bits target and notes those that were on. -/
theorem drawRow_spec (x0 bits : Byte) (r : Fin 32) (d : Drawn) (c : Fin 64) (q : Fin 32) :
    ((drawRow x0 r bits d).pix.get c q = (d.pix.get c q ^^
      decide (q = r ∧ ∃ k ∈ spriteColumns, bits.getLsbD (7 - k) = true ∧ wrapColumn x0 k = c))) ∧
    ((drawRow x0 r bits d).collided = true ↔ d.collided = true ∨
      ∃ k ∈ spriteColumns, bits.getLsbD (7 - k) = true ∧ d.pix.get (wrapColumn x0 k) r = true) :=
  foldl_drawBit spriteColumns (by decide) (by decide) d c q

theorem mem_spriteColumns {k : Nat} : k ∈ spriteColumns ↔ k < 8 := by
  simp only [spriteColumns, List.mem_cons, List.not_mem_nil, or_false]
  omega

end Sys2Proof.Machine
end

