-- ==== Sys2Proof/Laws/Memory.lean ====
section
/-!
SUPPORT. The laws of memory: what a read gives after a write, that every memory operation keeps the
canonical form, that equal reads mean equal canonical memories, and what the block operations do.
-/

namespace Sys2Proof.Machine

variable {m : Memory} {a b : Nat} {v : Byte}

/-! ## One byte -/

@[simp] theorem Memory.read_nil : Memory.read [] a = unlisted a := rfl

theorem Memory.read_cons (c : Host.Cell) :
    Memory.read (c :: m) a = if c.1 = a then c.2 else Memory.read m a := rfl

/-- An address with no entry reads as unlisted. -/
theorem Memory.read_eq_unlisted (h : ∀ c ∈ m, c.1 ≠ a) : m.read a = unlisted a := by
  induction m with
  | nil => rfl
  | cons c m ih =>
    rw [read_cons, if_neg (h c (by simp)), ih fun d hd => h d (by simp [hd])]

theorem Memory.read_dropCell : (m.dropCell a).read b = if b = a then unlisted a else m.read b := by
  by_cases hb : b = a
  · subst hb
    rw [if_pos rfl]
    exact read_eq_unlisted fun c hc => by
      simpa using (List.mem_filter.1 hc).2
  · rw [if_neg hb]
    induction m with
    | nil => rfl
    | cons c m ih =>
      unfold dropCell at ih ⊢
      rw [List.filter_cons]
      split
      · rw [read_cons, read_cons, ih]
      · next h =>
        have hca : c.1 = a := by simpa using h
        rw [ih, read_cons, if_neg (by omega)]

theorem Memory.read_insertCell (h : ∀ c ∈ m, c.1 ≠ a) :
    (m.insertCell a v).read b = if b = a then v else m.read b := by
  induction m with
  | nil => simp only [insertCell, read_cons, eq_comm]
  | cons c m ih =>
    have hc : c.1 ≠ a := h c (by simp)
    unfold insertCell
    split
    · simp only [read_cons, eq_comm]
    · rw [read_cons, ih fun d hd => h d (by simp [hd]), read_cons]
      by_cases hb : b = a
      · rw [if_neg (by omega), if_pos hb, if_pos hb]
      · simp only [if_neg hb]

theorem Memory.mem_dropCell {c : Host.Cell} (h : c ∈ m.dropCell a) : c ∈ m ∧ c.1 ≠ a := by
  simpa using List.mem_filter.1 h

/-- A byte reads as last written, and a write leaves every other byte, in every memory. -/
theorem Memory.read_write : (m.write a v).read b = if b = a then v else m.read b := by
  unfold write
  split
  · next h => rw [read_dropCell, h]
  · rw [read_insertCell fun c hc => (mem_dropCell hc).2, read_dropCell]
    split <;> rfl

/-! ## The canonical form -/

theorem Memory.wf_nil : Memory.wf [] := ⟨List.Pairwise.nil, by simp⟩

theorem Memory.wf_cons {c : Host.Cell} :
    Memory.wf (c :: m) ↔ (∀ d ∈ m, c.1 < d.1) ∧ c.1 < Config.memBytes ∧ c.2 ≠ unlisted c.1 ∧ m.wf := by
  simp only [Memory.wf, List.pairwise_cons, List.mem_cons, forall_eq_or_imp]
  tauto

theorem Memory.wf_dropCell (hm : m.wf) : (m.dropCell a).wf :=
  ⟨hm.1.filter _, fun c hc => hm.2 c (mem_dropCell hc).1⟩

theorem Memory.mem_insertCell {c : Host.Cell} (h : c ∈ m.insertCell a v) : c = (a, v) ∨ c ∈ m := by
  induction m with
  | nil => exact .inl (by simpa [insertCell] using h)
  | cons d m ih =>
    unfold insertCell at h
    split at h
    · exact List.mem_cons.1 h
    · rcases List.mem_cons.1 h with h | h
      · exact .inr (by simp [h])
      · exact (ih h).imp_right (List.mem_cons_of_mem _)

theorem Memory.wf_insertCell (hm : m.wf) (h : ∀ c ∈ m, c.1 ≠ a) (ha : a < Config.memBytes)
    (hv : v ≠ unlisted a) : (m.insertCell a v).wf := by
  induction m with
  | nil => exact wf_cons.2 ⟨by simp, ha, hv, wf_nil⟩
  | cons c m ih =>
    obtain ⟨hc, hlt, hne, hw⟩ := wf_cons.1 hm
    have hca : c.1 ≠ a := h c (by simp)
    unfold insertCell
    split
    · next hac =>
      refine wf_cons.2 ⟨fun d hd => ?_, ha, hv, hm⟩
      rcases List.mem_cons.1 hd with hd | hd
      · rw [hd]; exact hac
      · exact Nat.lt_trans hac (hc d hd)
    · next hac =>
      refine wf_cons.2 ⟨fun d hd => ?_, hlt, hne, ih hw fun d hd => h d (by simp [hd])⟩
      rcases mem_insertCell hd with hd | hd
      · rw [hd]; exact Nat.lt_of_le_of_ne (Nat.le_of_not_lt hac) hca
      · exact hc d hd

/-- A write in range keeps the canonical form. -/
theorem Memory.wf_write (hm : m.wf) (ha : a < Config.memBytes) : (m.write a v).wf := by
  unfold write
  split
  · exact wf_dropCell hm
  · next h => exact wf_insertCell (wf_dropCell hm) (fun c hc => (mem_dropCell hc).2) ha h

/-- Below its first listed address a canonical memory reads as unlisted. -/
theorem Memory.read_below_head {c : Host.Cell} (h : Memory.wf (c :: m)) (hac : a < c.1) :
    Memory.read (c :: m) a = unlisted a :=
  read_eq_unlisted fun d hd => by
    rcases List.mem_cons.1 hd with hd | hd
    · rw [hd]; exact hac.ne'
    · exact (hac.trans ((wf_cons.1 h).1 d hd)).ne'

/-- The first listed address of a canonical memory reads as its entry, not as unlisted. -/
theorem Memory.read_head {c : Host.Cell} (h : Memory.wf (c :: m)) :
    Memory.read (c :: m) c.1 = c.2 ∧ c.2 ≠ unlisted c.1 :=
  ⟨if_pos rfl, (wf_cons.1 h).2.2.1⟩

/-! ## Memory from a list of bytes -/

theorem Memory.mem_ofBytes {bs : List Byte} {d : Host.Cell} (h : d ∈ ofBytes a bs) : a ≤ d.1 := by
  induction bs generalizing a with
  | nil => cases h
  | cons b bs ih =>
    unfold ofBytes at h
    split at h
    · have := ih h; omega
    · rcases List.mem_cons.1 h with h | h
      · rw [h]
      · have := ih h; omega

theorem Memory.wf_ofBytes {bs : List Byte} (h : a + bs.length ≤ Config.memBytes) :
    (ofBytes a bs).wf := by
  induction bs generalizing a with
  | nil => exact wf_nil
  | cons b bs ih =>
    simp only [List.length_cons] at h
    unfold ofBytes
    split
    · exact ih (by omega)
    · next hb =>
      exact wf_cons.2 ⟨fun d hd => by have := mem_ofBytes hd; simp only; omega,
        by simp only; omega, hb, ih (by omega)⟩

/-- A memory made of bytes reads as those bytes, and as unlisted elsewhere. -/
theorem Memory.read_ofBytes {bs : List Byte} :
    (ofBytes a bs).read b = if h : a ≤ b ∧ b - a < bs.length then bs[b - a] else unlisted b := by
  induction bs generalizing a with
  | nil => simp [ofBytes]
  | cons x bs ih =>
    have hun : (ofBytes (a + 1) bs).read a = unlisted a :=
      read_eq_unlisted fun d hd => by have := mem_ofBytes hd; omega
    have key : (ofBytes a (x :: bs)).read b = if b = a then x else (ofBytes (a + 1) bs).read b := by
      conv_lhs => unfold ofBytes
      split
      · next h =>
        split
        · next hb => rw [hb, hun, h]
        · rfl
      · simp only [read_cons, eq_comm]
    rw [key, ih]
    by_cases hb : b = a
    · subst hb; simp
    · rw [if_neg hb]
      by_cases hab : a + 1 ≤ b
      · have e : b - a = b - (a + 1) + 1 := by omega
        simp only [e, List.length_cons, List.getElem_cons_succ, hab, true_and, Nat.add_lt_add_iff_right,
          show a ≤ b by omega]
      · rw [dif_neg (by omega), dif_neg (by omega)]

/-- Bytes that are all what their addresses read as unlisted are not listed. -/
theorem Memory.ofBytes_eq_nil {bs : List Byte}
    (h : ∀ (k : Nat) (hk : k < bs.length), bs[k] = unlisted (a + k)) : ofBytes a bs = [] := by
  induction bs generalizing a with
  | nil => rfl
  | cons b bs ih =>
    rw [ofBytes, if_pos (show b = unlisted a from h 0 (by simp))]
    exact ih fun k hk => by
      rw [Nat.add_assoc, Nat.add_comm 1]
      exact h (k + 1) (by rw [List.length_cons]; omega)

/-! ## Range-checked bytes and blocks (20_memory.md R55) -/

variable {p : Word}

theorem Memory.readByte_ok (h : a ≤ 0xFFF) : m.readByte p a = .ok (m.read a) := if_neg (by omega)

theorem Memory.readByte_error (h : 0xFFF < a) : m.readByte p a = .error (.memoryBounds p a) := if_pos h

theorem Memory.writeByte_ok (h : a ≤ 0xFFF) : m.writeByte p a v = .ok (m.write a v) :=
  if_neg (by omega)

theorem Memory.writeByte_error (h : 0xFFF < a) :
    m.writeByte p a v = .error (.memoryBounds p a) := if_pos h

/-- The first address above 0xFFF of a block that starts at `a` and passes 0xFFF. -/
abbrev firstOutOfRange (a : Nat) : Nat := if a > 0xFFF then a else 0x1000

theorem firstOutOfRange_succ (h : ¬ a > 0xFFF) : firstOutOfRange (a + 1) = firstOutOfRange a := by
  rw [firstOutOfRange, firstOutOfRange, if_neg h]; split <;> omega

/-- A block read in range gives the bytes in ascending order. -/
theorem Memory.readBlock_ok {n : Nat} (h : n = 0 ∨ a + (n - 1) ≤ 0xFFF) :
    m.readBlock p a n = .ok ((List.range n).map fun k => m.read (a + k)) := by
  induction n generalizing a with
  | zero => rfl
  | succ n ih =>
    rw [Memory.readBlock, readByte_ok (by omega), ih (by omega)]
    simp [List.range_succ_eq_map, Function.comp_def, Nat.add_assoc, Nat.add_comm 1]

/-- A block read that passes 0xFFF reports its first address above it. -/
theorem Memory.readBlock_error {n : Nat} (h : 0 < n) (h' : a + (n - 1) > 0xFFF) :
    m.readBlock p a n = .error (.memoryBounds p (firstOutOfRange a)) := by
  induction n generalizing a with
  | zero => omega
  | succ n ih =>
    by_cases ha : a > 0xFFF
    · rw [Memory.readBlock, readByte_error ha, firstOutOfRange, if_pos ha]
    · rw [Memory.readBlock, readByte_ok (by omega), ih (by omega) (by omega), firstOutOfRange_succ ha]

/-- A block write that passes 0xFFF reports its first address above it. -/
theorem Memory.writeBlock_error {bs : List Byte} (h : 0 < bs.length)
    (h' : a + (bs.length - 1) > 0xFFF) :
    m.writeBlock p a bs = .error (.memoryBounds p (firstOutOfRange a)) := by
  induction bs generalizing a m with
  | nil => simp at h
  | cons b bs ih =>
    simp only [List.length_cons] at h'
    by_cases ha : a > 0xFFF
    · rw [Memory.writeBlock, writeByte_error ha, firstOutOfRange, if_pos ha]
    · rw [Memory.writeBlock, writeByte_ok (by omega)]
      simp only
      rw [ih (by omega) (by omega), firstOutOfRange_succ ha]

/-- A block write in range gives a memory that holds the bytes from `a` on, reads as before
elsewhere, and is canonical if the old one was. -/
theorem Memory.writeBlock_ok {bs : List Byte} (h : bs = [] ∨ a + (bs.length - 1) ≤ 0xFFF) :
    ∃ m', m.writeBlock p a bs = .ok m' ∧ (m.wf → m'.wf) ∧
      ∀ b, m'.read b = if h : a ≤ b ∧ b - a < bs.length then bs[b - a] else m.read b := by
  induction bs generalizing a m with
  | nil => exact ⟨m, rfl, id, by simp⟩
  | cons x bs ih =>
    simp only [List.length_cons, reduceCtorEq, false_or] at h
    have h' : bs = [] ∨ a + 1 + (bs.length - 1) ≤ 0xFFF := by
      cases bs with
      | nil => exact .inl rfl
      | cons y ys => simp only [List.length_cons, reduceCtorEq, false_or] at h ⊢; omega
    obtain ⟨m', e, hw, hr⟩ := ih (m := m.write a x) h'
    refine ⟨m', ?_, fun hm => hw (wf_write hm (show a < 0x1000 by omega)), fun b => ?_⟩
    · rw [Memory.writeBlock, writeByte_ok (by omega)]; exact e
    · rw [hr, read_write]
      by_cases hb : b = a
      · subst hb; simp
      · rw [if_neg hb]
        by_cases hab : a + 1 ≤ b
        · have e : b - a = b - (a + 1) + 1 := by omega
          simp only [e, List.length_cons, List.getElem_cons_succ, hab, true_and,
            Nat.add_lt_add_iff_right, show a ≤ b by omega]
        · rw [dif_neg (by omega), dif_neg (by omega)]

/-- What a fetch gives: both bytes in range, the high byte first; else the first address above
0xFFF (20_memory.md R52). -/
theorem Memory.fetch16_ok {w : Word} (h : w.toNat ≤ 0xFFE) :
    m.fetch16 w = .ok (joinBytes (m.read w.toNat) (m.read (w.toNat + 1))) := by
  rw [fetch16, readByte_ok (by omega), readByte_ok (by omega)]

theorem Memory.fetch16_error {w : Word} (h : w.toNat ≥ 0xFFF) :
    m.fetch16 w = .error (.memoryBounds w (firstOutOfRange w.toNat)) := by
  unfold fetch16
  by_cases hw : w.toNat > 0xFFF
  · rw [readByte_error hw, firstOutOfRange, if_pos hw]
  · rw [readByte_ok (by omega), readByte_error (by omega), firstOutOfRange, if_neg hw]
    simp only [show w.toNat + 1 = 0x1000 by omega]

end Sys2Proof.Machine
end

