-- ==== Sys2Proof/Laws/Ops.lean ====
section
/-!
SUPPORT. What each shared operation of Machine/Ops.lean can do, said once: later proofs cite these
lemmas instead of unfolding the operations.
-/

namespace Sys2Proof.Machine

variable {s t : State} {x : RegIx} {a n : Nat}

/-! ## Partial operations -/

@[simp] theorem orRaise_ok {α : Type} (v : α) (k : α → Outcome) : orRaise (.ok v) k = k v := rfl

@[simp] theorem orRaise_error {α : Type} (f : Fault) (k : α → Outcome) :
    orRaise (.error f) k = .fault f := rfl

/-- A partial operation followed by a continuation goes on only through the operation's value. -/
theorem orRaise_eq_next {α : Type} {r : Except Fault α} {k : α → Outcome}
    (h : orRaise r k = .next t) : ∃ v, r = .ok v ∧ k v = .next t := by
  cases r with
  | ok v => exact ⟨v, rfl, h⟩
  | error f => exact absurd h (by simp)

/-! ## Skips -/

theorem State.skipIf_cases (c : Bool) :
    c = true ∧ s.skipIf c = s.setPc (s.pc + 2) ∨ c = false ∧ s.skipIf c = s := by
  cases c <;> simp

theorem State.skipIf_pc (c : Bool) : (s.skipIf c).pc = if c then s.pc + 2 else s.pc := by
  cases c <;> rfl

/-! ## The stack -/

/-- The stack pointer counts at most 16 entries (10_state.md R26). -/
theorem State.sp_le (s : State) : s.sp.val ≤ 16 := Nat.le_of_lt_succ s.sp.isLt

/-- A push below the capacity. -/
theorem State.pushPc_ok (h : s.sp.val < 16) :
    s.pushPc = .ok { s with stack := s.stack.set s.sp.val s.pc h, sp := ⟨s.sp.val + 1, Nat.succ_lt_succ h⟩ } :=
  dif_pos h

/-- A push at the capacity. -/
theorem State.pushPc_error (h : s.sp.val = 16) : s.pushPc = .error (.stackOverflow s.faultPc) :=
  dif_neg (by simp [h])

/-- A pop of the newest entry, `n`. -/
theorem State.popPc_ok (hn : n < 16) (h : s.sp.val = n + 1) :
    s.popPc = .ok (s.stack[n], { s with
      stack := s.stack.set n (Config.poppedEntry s.pops) hn
      sp := ⟨n, Nat.lt_succ_of_lt hn⟩
      pops := s.pops + 1 }) := by
  obtain rfl : n = s.sp.val - 1 := by omega
  exact dif_pos (by omega)

/-- A pop of an empty stack. -/
theorem State.popPc_error (h : s.sp.val = 0) : s.popPc = .error (.stackUnderflow s.faultPc) :=
  dif_neg (by omega)

/-! ## Memory blocks of the state -/

/-- A block write in range: only memory changes, and only in the block. -/
theorem State.writeBlock_ok {bs : List Byte} (h : bs = [] ∨ a + (bs.length - 1) ≤ 0xFFF) :
    ∃ m, s.writeBlock a bs = .ok { s with mem := m } ∧ (s.mem.wf → m.wf) ∧
      ∀ b, m.read b = if h : a ≤ b ∧ b - a < bs.length then bs[b - a] else s.mem.read b := by
  obtain ⟨m, e, hw, hr⟩ := Memory.writeBlock_ok (m := s.mem) (p := s.faultPc) h
  exact ⟨m, by rw [writeBlock, e], hw, hr⟩

/-- A block write that passes 0xFFF. -/
theorem State.writeBlock_error {bs : List Byte} (h : 0 < bs.length) (h' : a + (bs.length - 1) > 0xFFF) :
    s.writeBlock a bs = .error (.memoryBounds s.faultPc (firstOutOfRange a)) := by
  rw [writeBlock, Memory.writeBlock_error h h']

/-- A block read in range. -/
theorem State.readBlock_ok (h : n = 0 ∨ a + (n - 1) ≤ 0xFFF) :
    s.readBlock a n = .ok ((List.range n).map fun k => s.mem.read (a + k)) :=
  Memory.readBlock_ok h

/-- A block read that passes 0xFFF. -/
theorem State.readBlock_error (h : 0 < n) (h' : a + (n - 1) > 0xFFF) :
    s.readBlock a n = .error (.memoryBounds s.faultPc (firstOutOfRange a)) :=
  Memory.readBlock_error h h'

/-! ## Register blocks -/

/-- Filling registers from index `a` on: those the list covers take its bytes, the others stay. -/
theorem getElem_fillRegs (v : Vector Byte 16) (bs : List Byte) (k : Nat) (hk : k < 16) :
    (fillRegs v a bs)[k] = if h : a ≤ k ∧ k - a < bs.length then bs[k - a] else v[k] := by
  induction bs generalizing a v with
  | nil => simp [fillRegs]
  | cons b bs ih =>
    rw [fillRegs, ih]
    by_cases hka : a + 1 ≤ k
    · have e : k - a = k - (a + 1) + 1 := by omega
      have hne : a ≠ k := by omega
      simp only [e, List.length_cons, List.getElem_cons_succ, hka, true_and,
        Nat.add_lt_add_iff_right, show a ≤ k by omega, Vector.getElem_setIfInBounds_ne hk hne]
    · rw [dif_neg (by omega)]
      by_cases hak : a = k
      · subst hak; simp
      · rw [dif_neg (by omega), Vector.getElem_setIfInBounds_ne hk hak]

/-- Register `k` after the first registers took the bytes of a list. -/
theorem State.getV_fillV (bs : List Byte) (k : RegIx) :
    (s.fillV bs).getV k = if h : k.val < bs.length then bs[k.val] else s.getV k := by
  simp [State.getV, getElem_fillRegs]

/-- The registers `Fx55` stores: `x + 1` of them. -/
theorem State.length_blockRegs : (s.blockRegs x).length = x.val + 1 := by
  simp [blockRegs, blockCount]

theorem State.getElem_blockRegs (k : Nat) (h : k < (s.blockRegs x).length) :
    (s.blockRegs x)[k] = s.getV ⟨k, by rw [length_blockRegs] at h; omega⟩ := by
  simp [blockRegs, State.getV]

/-! ## Keys -/

/-- The first key that is down, counted from `a`. -/
theorem firstDown_eq_some {ks : List Bool} {k : Nat} (hk : k < ks.length) (hd : ks[k] = true)
    (hu : ∀ (j : Nat) (h : j < k), ks[j] = false) : firstDown a ks = some (a + k) := by
  induction ks generalizing a k with
  | nil => simp at hk
  | cons b ks ih =>
    cases k with
    | zero => simp only [List.getElem_cons_zero] at hd; rw [hd]; rfl
    | succ k =>
      have hb : b = false := hu 0 (by omega)
      rw [hb, firstDown, ih (k := k) (by simpa using hk) (by simpa using hd)
        fun j hj => by simpa using hu (j + 1) (by omega)]
      congr 1; omega

theorem firstDown_eq_none {ks : List Bool} (hu : ∀ (j : Nat) (h : j < ks.length), ks[j] = false) :
    firstDown a ks = none := by
  induction ks generalizing a with
  | nil => rfl
  | cons b ks ih =>
    have hb : b = false := hu 0 (by simp)
    rw [hb, firstDown, ih fun j hj => hu (j + 1) (by rw [List.length_cons]; omega)]

/-- With key `k` the lowest key down, `AnyKeyDown()` is `k`. -/
theorem State.anyKeyDown_eq_some {k : Nat} (hk : k < 16) (hd : s.key[k] = true)
    (hu : ∀ (j : Nat) (h : j < k), s.key[j] = false) : s.anyKeyDown = some k := by
  have := firstDown_eq_some (a := 0) (ks := s.key.toList) (k := k) (by simpa using hk) (by simpa using hd)
    fun j hj => by simpa using hu j hj
  simpa [anyKeyDown] using this

/-- With every key up there is none. -/
theorem State.anyKeyDown_eq_none (hu : ∀ (j : Nat) (h : j < 16), s.key[j] = false) :
    s.anyKeyDown = none :=
  firstDown_eq_none fun j hj => by simpa using hu j (by simpa using hj)

theorem State.keyDown_ok {v : Byte} (h : v.toNat < 16) : s.keyDown v = .ok s.key[v.toNat] := dif_pos h

theorem State.keyDown_error {v : Byte} (h : v.toNat > 0xF) :
    s.keyDown v = .error (.keyIndexRange s.faultPc v) := dif_neg (by omega)

/-! ## The fetch and the step -/

/-- The step of a running core: the fetched word decoded and executed. -/
theorem step_running (h : s.status = .running) (hp : s.pc.toNat ≤ 0xFFE) :
    step s = exec (decodeWord (joinBytes (s.mem.read s.pc.toNat) (s.mem.read (s.pc.toNat + 1))))
      s.advancePc := by
  unfold step
  rw [h]
  simp only [State.fetch, Memory.fetch16_ok hp, orRaise_ok]

/-- The step of a running core whose fetch runs past 0xFFF. -/
theorem step_fetch_error (h : s.status = .running) (hp : s.pc.toNat ≥ 0xFFF) :
    step s = .fault (.memoryBounds s.pc (firstOutOfRange s.pc.toNat)) := by
  unfold step
  rw [h]
  simp only [State.fetch, Memory.fetch16_error hp, orRaise_error]

/-- A halted core takes no step. -/
theorem step_halted {f : Fault} (h : s.status = .halted f) : step s = .refused (.coreHalted f) := by
  unfold step
  rw [h]

/-- A step that goes on starts from a running core whose fetch is in range, and is the execution of
the decoded word. -/
theorem step_eq_next (h : step s = .next t) : s.status = .running ∧ s.pc.toNat ≤ 0xFFE ∧
    exec (decodeWord (joinBytes (s.mem.read s.pc.toNat) (s.mem.read (s.pc.toNat + 1))))
      s.advancePc = .next t := by
  cases hs : s.status with
  | halted f => rw [step_halted hs] at h; cases h
  | running =>
    by_cases hp : s.pc.toNat ≤ 0xFFE
    · exact ⟨rfl, hp, by rw [← step_running hs hp]; exact h⟩
    · rw [step_fetch_error hs (by omega)] at h; cases h

/-! ## Host operations -/

@[simp] theorem State.whileRunning_running {α : Type} (h : s.status = .running) (v : α) :
    s.whileRunning v = some v := by
  simp [whileRunning, isRunning, h]

@[simp] theorem State.whileRunning_halted {α : Type} {f : Fault} (h : s.status = .halted f) (v : α) :
    s.whileRunning v = none := by
  simp [whileRunning, isRunning, h]

theorem toNat_countDown (b : Byte) : (countDown b).toNat = b.toNat - 1 := by
  unfold countDown
  split
  · next h => simp [h]
  · next h =>
    have : b.toNat ≠ 0 := fun h' => h (BitVec.eq_of_toNat_eq (by simpa using h'))
    have := b.isLt
    rw [BitVec.toNat_sub]
    have : (1 : Byte).toNat = 1 := rfl
    omega

end Sys2Proof.Machine
end

