-- ==== Sys2Proof/Laws/Frames.lean ====
section
/-!
SUPPORT. Frames compose, and the frame of each named update.
-/

namespace Sys2Proof.Machine

variable {s t u : State} {ps qs : List Part} {xs ys : List RegIx}

theorem Part.same_refl (p : Part) (s : State) : p.same s s := by
  cases p <;> simp [Part.same]

theorem Part.same_trans {p : Part} (h : p.same s t) (h' : p.same t u) : p.same s u := by
  cases p <;> simp_all [Part.same]

theorem SameExcept.refl (ps : List Part) (s : State) : SameExcept ps s s := fun p _ => p.same_refl s

theorem SameExcept.mono (h : SameExcept ps s t) (hs : ∀ p ∈ ps, p ∈ qs) : SameExcept qs s t :=
  fun p hp => h p fun hm => hp (hs p hm)

theorem SameExcept.trans (h : SameExcept ps s t) (h' : SameExcept ps t u) : SameExcept ps s u :=
  fun p hp => Part.same_trans (h p hp) (h' p hp)

theorem SameRegsExcept.trans (h : SameRegsExcept xs s t) (h' : SameRegsExcept xs t u) :
    SameRegsExcept xs s u := fun k hk => (h' k hk).trans (h k hk)

/-! ## Updates -/

theorem sameExcept_setV (s : State) (x : RegIx) (b : Byte) : SameExcept [.regs] s (s.setV x b) := by
  intro p hp; cases p <;> simp_all [Part.same]

theorem sameExcept_fillV (s : State) (bs : List Byte) : SameExcept [.regs] s (s.fillV bs) := by
  intro p hp; cases p <;> simp_all [Part.same]

theorem sameExcept_setI (s : State) (w : Word) : SameExcept [.addr] s (s.setI w) := by
  intro p hp; cases p <;> simp_all [Part.same]

theorem sameExcept_setPc (s : State) (w : Word) : SameExcept [.pc] s (s.setPc w) := by
  intro p hp; cases p <;> simp_all [Part.same]

theorem sameExcept_skipIf (s : State) (c : Bool) : SameExcept [.pc] s (s.skipIf c) := by
  cases c
  · exact SameExcept.refl _ s
  · exact sameExcept_setPc s _

theorem sameExcept_setDT (s : State) (b : Byte) : SameExcept [.delay] s (s.setDT b) := by
  intro p hp; cases p <;> simp_all [Part.same]

theorem sameExcept_setST (s : State) (b : Byte) : SameExcept [.sound] s (s.setST b) := by
  intro p hp; cases p <;> simp_all [Part.same]

theorem sameExcept_mem (s : State) (m : Memory) : SameExcept [.memory] s { s with mem := m } := by
  intro p hp; cases p <;> simp_all [Part.same, State.getV]

theorem sameExcept_pix (s : State) (q : Framebuffer) : SameExcept [.display] s { s with pix := q } := by
  intro p hp; cases p <;> simp_all [Part.same, State.getV]

/-! ## Registers -/

theorem sameRegsExcept_setV (s : State) (x : RegIx) (b : Byte) : SameRegsExcept [x] s (s.setV x b) := by
  intro k hk
  simp_all

theorem sameRegsExcept_setResultFlag (s : State) (x : RegIx) (b : Byte) (c : Bool) :
    SameRegsExcept [x, VF] s (s.setResultFlag x b c) := by
  intro k hk
  simp_all

theorem sameExcept_setResultFlag (s : State) (x : RegIx) (b : Byte) (c : Bool) :
    SameExcept [.regs] s (s.setResultFlag x b c) :=
  (sameExcept_setV s x b).trans (sameExcept_setV _ VF _)

end Sys2Proof.Machine
end

