-- ==== Sys2Proof/Laws/PerInstr.lean ====
section
/-!
SUPPORT. Statements about every instruction as syntax, one lemma per constructor.
-/

namespace Sys2Proof.Laws.EncodingRow

/-- Some row of the opcode table carries the instruction's mnemonic and recognizes its encoding
(30_encoding.md R84). -/
def HasRow (i : Instr) : Prop :=
  ∃ r ∈ opcodeTable, r.mnemonic = i.mnemonic ∧ r.recognizes (encode i) = true

/-- The encoding of an instruction is recognized by the row of the opcode table that carries its
mnemonic (30_encoding.md R84); the word of a well-formed data word by no row (R86). -/
def Statement (i : Instr) : Prop :=
  match i with
  | .dw w => (Instr.dw w).wellFormed = true → ∀ r ∈ opcodeTable, r.recognizes w = false
  | .cls => HasRow (.cls)
  | .ret => HasRow (.ret)
  | .jp nnn => HasRow (.jp nnn)
  | .call nnn => HasRow (.call nnn)
  | .seImm x nn => HasRow (.seImm x nn)
  | .sneImm x nn => HasRow (.sneImm x nn)
  | .seReg x y => HasRow (.seReg x y)
  | .ldImm x nn => HasRow (.ldImm x nn)
  | .addImm x nn => HasRow (.addImm x nn)
  | .ldReg x y => HasRow (.ldReg x y)
  | .orReg x y => HasRow (.orReg x y)
  | .andReg x y => HasRow (.andReg x y)
  | .xorReg x y => HasRow (.xorReg x y)
  | .addReg x y => HasRow (.addReg x y)
  | .sub x y => HasRow (.sub x y)
  | .shr x y => HasRow (.shr x y)
  | .subn x y => HasRow (.subn x y)
  | .shl x y => HasRow (.shl x y)
  | .sneReg x y => HasRow (.sneReg x y)
  | .ldI nnn => HasRow (.ldI nnn)
  | .jpV0 nnn => HasRow (.jpV0 nnn)
  | .rnd x nn => HasRow (.rnd x nn)
  | .drw x y n => HasRow (.drw x y n)
  | .skp x => HasRow (.skp x)
  | .sknp x => HasRow (.sknp x)
  | .ldVxDT x => HasRow (.ldVxDT x)
  | .ldVxK x => HasRow (.ldVxK x)
  | .ldDTVx x => HasRow (.ldDTVx x)
  | .ldSTVx x => HasRow (.ldSTVx x)
  | .addIVx x => HasRow (.addIVx x)
  | .ldFVx x => HasRow (.ldFVx x)
  | .ldBVx x => HasRow (.ldBVx x)
  | .ldMemVx x => HasRow (.ldMemVx x)
  | .ldVxMem x => HasRow (.ldVxMem x)

theorem cls : Statement .cls :=
  ⟨⟨"CLS", 0x00E0, 0xFFFF⟩, by decide, rfl,
    rfl⟩

theorem ret : Statement .ret :=
  ⟨⟨"RET", 0x00EE, 0xFFFF⟩, by decide, rfl,
    rfl⟩

theorem jp (nnn : Addr12) : Statement (.jp nnn) :=
  ⟨⟨"JP_nnn", 0x1000, 0xF000⟩, by decide, rfl,
    beq_iff_eq.2 (by rw [encode, and_F000, fieldTop_wordNNN]; rfl)⟩

theorem call (nnn : Addr12) : Statement (.call nnn) :=
  ⟨⟨"CALL_nnn", 0x2000, 0xF000⟩, by decide, rfl,
    beq_iff_eq.2 (by rw [encode, and_F000, fieldTop_wordNNN]; rfl)⟩

theorem seImm (x : RegIx) (nn : Byte) : Statement (.seImm x nn) :=
  ⟨⟨"SE_Vx__nn", 0x3000, 0xF000⟩, by decide, rfl,
    beq_iff_eq.2 (by rw [encode, and_F000, fieldTop_wordXNN]; rfl)⟩

theorem sneImm (x : RegIx) (nn : Byte) : Statement (.sneImm x nn) :=
  ⟨⟨"SNE_Vx__nn", 0x4000, 0xF000⟩, by decide, rfl,
    beq_iff_eq.2 (by rw [encode, and_F000, fieldTop_wordXNN]; rfl)⟩

theorem seReg (x y : RegIx) : Statement (.seReg x y) :=
  ⟨⟨"SE_Vx__Vy", 0x5000, 0xF00F⟩, by decide, rfl,
    beq_iff_eq.2 (by rw [encode, and_F00F, fieldTop_wordXYN, fieldN_wordXYN]; rfl)⟩

theorem ldImm (x : RegIx) (nn : Byte) : Statement (.ldImm x nn) :=
  ⟨⟨"LD_Vx__nn", 0x6000, 0xF000⟩, by decide, rfl,
    beq_iff_eq.2 (by rw [encode, and_F000, fieldTop_wordXNN]; rfl)⟩

theorem addImm (x : RegIx) (nn : Byte) : Statement (.addImm x nn) :=
  ⟨⟨"ADD_Vx__nn", 0x7000, 0xF000⟩, by decide, rfl,
    beq_iff_eq.2 (by rw [encode, and_F000, fieldTop_wordXNN]; rfl)⟩

theorem ldReg (x y : RegIx) : Statement (.ldReg x y) :=
  ⟨⟨"LD_Vx__Vy", 0x8000, 0xF00F⟩, by decide, rfl,
    beq_iff_eq.2 (by rw [encode, and_F00F, fieldTop_wordXYN, fieldN_wordXYN]; rfl)⟩

theorem orReg (x y : RegIx) : Statement (.orReg x y) :=
  ⟨⟨"OR_Vx__Vy", 0x8001, 0xF00F⟩, by decide, rfl,
    beq_iff_eq.2 (by rw [encode, and_F00F, fieldTop_wordXYN, fieldN_wordXYN]; rfl)⟩

theorem andReg (x y : RegIx) : Statement (.andReg x y) :=
  ⟨⟨"AND_Vx__Vy", 0x8002, 0xF00F⟩, by decide, rfl,
    beq_iff_eq.2 (by rw [encode, and_F00F, fieldTop_wordXYN, fieldN_wordXYN]; rfl)⟩

theorem xorReg (x y : RegIx) : Statement (.xorReg x y) :=
  ⟨⟨"XOR_Vx__Vy", 0x8003, 0xF00F⟩, by decide, rfl,
    beq_iff_eq.2 (by rw [encode, and_F00F, fieldTop_wordXYN, fieldN_wordXYN]; rfl)⟩

theorem addReg (x y : RegIx) : Statement (.addReg x y) :=
  ⟨⟨"ADD_Vx__Vy", 0x8004, 0xF00F⟩, by decide, rfl,
    beq_iff_eq.2 (by rw [encode, and_F00F, fieldTop_wordXYN, fieldN_wordXYN]; rfl)⟩

theorem sub (x y : RegIx) : Statement (.sub x y) :=
  ⟨⟨"SUB_Vx__Vy", 0x8005, 0xF00F⟩, by decide, rfl,
    beq_iff_eq.2 (by rw [encode, and_F00F, fieldTop_wordXYN, fieldN_wordXYN]; rfl)⟩

theorem shr (x y : RegIx) : Statement (.shr x y) :=
  ⟨⟨"SHR_Vx__Vy", 0x8006, 0xF00F⟩, by decide, rfl,
    beq_iff_eq.2 (by rw [encode, and_F00F, fieldTop_wordXYN, fieldN_wordXYN]; rfl)⟩

theorem subn (x y : RegIx) : Statement (.subn x y) :=
  ⟨⟨"SUBN_Vx__Vy", 0x8007, 0xF00F⟩, by decide, rfl,
    beq_iff_eq.2 (by rw [encode, and_F00F, fieldTop_wordXYN, fieldN_wordXYN]; rfl)⟩

theorem shl (x y : RegIx) : Statement (.shl x y) :=
  ⟨⟨"SHL_Vx__Vy", 0x800E, 0xF00F⟩, by decide, rfl,
    beq_iff_eq.2 (by rw [encode, and_F00F, fieldTop_wordXYN, fieldN_wordXYN]; rfl)⟩

theorem sneReg (x y : RegIx) : Statement (.sneReg x y) :=
  ⟨⟨"SNE_Vx__Vy", 0x9000, 0xF00F⟩, by decide, rfl,
    beq_iff_eq.2 (by rw [encode, and_F00F, fieldTop_wordXYN, fieldN_wordXYN]; rfl)⟩

theorem ldI (nnn : Addr12) : Statement (.ldI nnn) :=
  ⟨⟨"LD_I__nnn", 0xA000, 0xF000⟩, by decide, rfl,
    beq_iff_eq.2 (by rw [encode, and_F000, fieldTop_wordNNN]; rfl)⟩

theorem jpV0 (nnn : Addr12) : Statement (.jpV0 nnn) :=
  ⟨⟨"JP_V0__nnn", 0xB000, 0xF000⟩, by decide, rfl,
    beq_iff_eq.2 (by rw [encode, and_F000, fieldTop_wordNNN]; rfl)⟩

theorem rnd (x : RegIx) (nn : Byte) : Statement (.rnd x nn) :=
  ⟨⟨"RND_Vx__nn", 0xC000, 0xF000⟩, by decide, rfl,
    beq_iff_eq.2 (by rw [encode, and_F000, fieldTop_wordXNN]; rfl)⟩

theorem drw (x y : RegIx) (n : RowCount) : Statement (.drw x y n) :=
  ⟨⟨"DRW_Vx__Vy__n", 0xD000, 0xF000⟩, by decide, rfl,
    beq_iff_eq.2 (by rw [encode, and_F000, fieldTop_wordXYN]; rfl)⟩

theorem skp (x : RegIx) : Statement (.skp x) :=
  ⟨⟨"SKP_Vx", 0xE09E, 0xF0FF⟩, by decide, rfl,
    beq_iff_eq.2 (by rw [encode, and_F0FF, fieldTop_wordXNN, fieldNN_wordXNN]; rfl)⟩

theorem sknp (x : RegIx) : Statement (.sknp x) :=
  ⟨⟨"SKNP_Vx", 0xE0A1, 0xF0FF⟩, by decide, rfl,
    beq_iff_eq.2 (by rw [encode, and_F0FF, fieldTop_wordXNN, fieldNN_wordXNN]; rfl)⟩

theorem ldVxDT (x : RegIx) : Statement (.ldVxDT x) :=
  ⟨⟨"LD_Vx__DT", 0xF007, 0xF0FF⟩, by decide, rfl,
    beq_iff_eq.2 (by rw [encode, and_F0FF, fieldTop_wordXNN, fieldNN_wordXNN]; rfl)⟩

theorem ldVxK (x : RegIx) : Statement (.ldVxK x) :=
  ⟨⟨"LD_Vx__K", 0xF00A, 0xF0FF⟩, by decide, rfl,
    beq_iff_eq.2 (by rw [encode, and_F0FF, fieldTop_wordXNN, fieldNN_wordXNN]; rfl)⟩

theorem ldDTVx (x : RegIx) : Statement (.ldDTVx x) :=
  ⟨⟨"LD_DT__Vx", 0xF015, 0xF0FF⟩, by decide, rfl,
    beq_iff_eq.2 (by rw [encode, and_F0FF, fieldTop_wordXNN, fieldNN_wordXNN]; rfl)⟩

theorem ldSTVx (x : RegIx) : Statement (.ldSTVx x) :=
  ⟨⟨"LD_ST__Vx", 0xF018, 0xF0FF⟩, by decide, rfl,
    beq_iff_eq.2 (by rw [encode, and_F0FF, fieldTop_wordXNN, fieldNN_wordXNN]; rfl)⟩

theorem addIVx (x : RegIx) : Statement (.addIVx x) :=
  ⟨⟨"ADD_I__Vx", 0xF01E, 0xF0FF⟩, by decide, rfl,
    beq_iff_eq.2 (by rw [encode, and_F0FF, fieldTop_wordXNN, fieldNN_wordXNN]; rfl)⟩

theorem ldFVx (x : RegIx) : Statement (.ldFVx x) :=
  ⟨⟨"LD_F__Vx", 0xF029, 0xF0FF⟩, by decide, rfl,
    beq_iff_eq.2 (by rw [encode, and_F0FF, fieldTop_wordXNN, fieldNN_wordXNN]; rfl)⟩

theorem ldBVx (x : RegIx) : Statement (.ldBVx x) :=
  ⟨⟨"LD_B__Vx", 0xF033, 0xF0FF⟩, by decide, rfl,
    beq_iff_eq.2 (by rw [encode, and_F0FF, fieldTop_wordXNN, fieldNN_wordXNN]; rfl)⟩

theorem ldMemVx (x : RegIx) : Statement (.ldMemVx x) :=
  ⟨⟨"LD__I___Vx", 0xF055, 0xF0FF⟩, by decide, rfl,
    beq_iff_eq.2 (by rw [encode, and_F0FF, fieldTop_wordXNN, fieldNN_wordXNN]; rfl)⟩

theorem ldVxMem (x : RegIx) : Statement (.ldVxMem x) :=
  ⟨⟨"LD_Vx___I", 0xF065, 0xF0FF⟩, by decide, rfl,
    beq_iff_eq.2 (by rw [encode, and_F0FF, fieldTop_wordXNN, fieldNN_wordXNN]; rfl)⟩

theorem dw (word : Word) : Statement (.dw word) := by
  intro h
  simpa [Instr.wellFormed, recognized] using h

end Sys2Proof.Laws.EncodingRow
end

