-- ==== Sys2Proof/Tests/Slice0.lean ====
section
/-!
SUPPORT. Tests of the author's own, each one step on a small state; the expected results are the
vectors of 95_test_vectors.md, named in each docstring, or a hand calculation from the rule named.
After them, for every obligation with hypotheses, a state and operands that meet them.
-/

namespace Sys2Proof.Tests

open Sys2Proof.Machine

/-! ## Small states -/

/-- Registers `V0, V1, ...` set from a list. -/
def withV (bs : List Byte) : State := State.reset.fillV bs

/-- `V1` and `V2`, and a `VF` to be kept or overwritten. -/
def withV12F (a b f : Byte) : State := ((State.reset.setV 1 a).setV 2 b).setV VF f

/-- Memory bytes from an address on. -/
def store (s : State) (a : Nat) (bs : List Byte) : State :=
  { s with mem := Memory.ofBytes a bs }

/-- The keys of a list held down. -/
def press (s : State) (ks : List KeyIx) : State :=
  { s with key := ks.foldl (fun v (k : KeyIx) => v.set k.val true k.isLt) s.key }

/-- The next state of an outcome. -/
def next? : Outcome → Option State
  | .next t => some t
  | .fault _ => none
  | .refused _ => none

/-- The fatal condition of an outcome. -/
def fault? : Outcome → Option Fault
  | .fault f => some f
  | .next _ => none
  | .refused _ => none

/-- A view of the state after one step that runs the word `w` at the program counter. -/
def after {α : Type} (s : State) (w : Nat) (view : State → α) : Option α :=
  (next? (step (s.withFetchWord 16 w))).map view

/-- The fatal condition of one step that runs the word `w`. -/
def stops (s : State) (w : Nat) : Option Fault := fault? (step (s.withFetchWord 16 w))

/-- Pixels of row 0, by column. -/
def row0 (s : State) (cs : List (Fin 64)) : List Bool := cs.map fun c => s.pix.get c 0

/-! ## Well-formedness -/

/-- The word of an instruction is no data word (30_encoding.md R86). -/
theorem test_data_word_of_cls_is_ill_formed : (Instr.dw 0x00E0#16).wellFormed = false := by decide

/-- The word of an instruction with operands is no data word either. -/
theorem test_data_word_of_drw_is_ill_formed : (Instr.dw 0xD123#16).wellFormed = false := by decide

/-- An unrecognized word is. -/
theorem test_data_word_of_sys_is_well_formed : (Instr.dw 0x0123#16).wellFormed = true := by decide

/-! ## Decoding: one word for each row, its four nibbles written out from 30_encoding.md R84 -/

/-- Formats `fixed` and `nnn`. -/
theorem test_decode_fixed_and_nnn :
    decodeWord 0b0000000011100000#16 = .cls ∧
    decodeWord 0b0000000011101110#16 = .ret ∧
    decodeWord 0b0001101010111100#16 = .jp 0xABC#12 ∧
    decodeWord 0b0010001100000001#16 = .call 0x301#12 ∧
    decodeWord 0b1010000100100011#16 = .ldI 0x123#12 ∧
    decodeWord 0b1011111100000001#16 = .jpV0 0xF01#12 := by decide

/-- Format `xnn`. -/
theorem test_decode_xnn :
    decodeWord 0b0011001101000010#16 = .seImm 3 0x42#8 ∧
    decodeWord 0b0100001101000010#16 = .sneImm 3 0x42#8 ∧
    decodeWord 0b0110101001011100#16 = .ldImm 10 0x5C#8 ∧
    decodeWord 0b0111111100000001#16 = .addImm 15 0x01#8 ∧
    decodeWord 0b1100001100001111#16 = .rnd 3 0x0F#8 := by decide

/-- Format `xy_sub`, with `x` and `y` different so that a swap shows. -/
theorem test_decode_xy :
    decodeWord 0b0101000100100000#16 = .seReg 1 2 ∧
    decodeWord 0b1001000100100000#16 = .sneReg 1 2 ∧
    decodeWord 0b1000000100100000#16 = .ldReg 1 2 ∧
    decodeWord 0b1000000100100001#16 = .orReg 1 2 ∧
    decodeWord 0b1000000100100010#16 = .andReg 1 2 ∧
    decodeWord 0b1000000100100011#16 = .xorReg 1 2 ∧
    decodeWord 0b1000000100100100#16 = .addReg 1 2 ∧
    decodeWord 0b1000000100100101#16 = .sub 1 2 ∧
    decodeWord 0b1000000100100110#16 = .shr 1 2 ∧
    decodeWord 0b1000000100100111#16 = .subn 1 2 ∧
    decodeWord 0b1000000100101110#16 = .shl 1 2 := by decide

/-- Formats `xyn` and `x_sub8`. -/
theorem test_decode_xyn_and_sub8 :
    decodeWord 0b1101101111000010#16 = .drw 11 12 2 ∧
    decodeWord 0b1110010110011110#16 = .skp 5 ∧
    decodeWord 0b1110010110100001#16 = .sknp 5 ∧
    decodeWord 0b1111001100000111#16 = .ldVxDT 3 ∧
    decodeWord 0b1111001100001010#16 = .ldVxK 3 ∧
    decodeWord 0b1111001100010101#16 = .ldDTVx 3 ∧
    decodeWord 0b1111001100011000#16 = .ldSTVx 3 ∧
    decodeWord 0b1111001100011110#16 = .addIVx 3 ∧
    decodeWord 0b1111101000101001#16 = .ldFVx 10 ∧
    decodeWord 0b1111000000110011#16 = .ldBVx 0 ∧
    decodeWord 0b1111001001010101#16 = .ldMemVx 2 ∧
    decodeWord 0b1111001001100101#16 = .ldVxMem 2 := by decide

/-- A word of each no-op space of 30_encoding.md R86. -/
theorem test_decode_unrecognized :
    decodeWord 0x0123#16 = .dw 0x0123#16 ∧ decodeWord 0x5121#16 = .dw 0x5121#16 ∧
    decodeWord 0x8128#16 = .dw 0x8128#16 ∧ decodeWord 0x9121#16 = .dw 0x9121#16 ∧
    decodeWord 0xE19F#16 = .dw 0xE19F#16 ∧ decodeWord 0xF1FF#16 = .dw 0xF1FF#16 := by decide

/-- The first byte is the high one; one byte is no instruction. -/
theorem test_decode_bytes :
    decodeBytes [0x2A, 0xBC, 0x77] = .ok (.call 0xABC#12, [0x77]) ∧
    decodeBytes [0x2A] = .error .truncated := by decide

/-- The table's numbering: bit 0 is the least significant bit of the word. -/
theorem test_decode_table_word : decodeTableWord 16 0x8126 = some (.shr 1 2) := by decide

/-! ## Control transfer -/

/-- V1, V2. -/
theorem test_jp : after State.reset 0x1ABC (·.pc) = some 0xABC#16 ∧
    after State.reset 0x1201 (·.pc) = some 0x201#16 := by decide

/-- V3. -/
theorem test_call : after State.reset 0x2ABC (fun t => (t.pc, t.sp.val, t.stack[0])) =
    some (0xABC#16, 1, 0x202#16) := by decide

/-- V4, V5. -/
theorem test_call_full :
    after { State.reset with sp := 15 } 0x2300 (fun t => (t.pc, t.sp.val, t.stack[15])) =
      some (0x300#16, 16, 0x202#16) ∧
    stops { State.reset with sp := 16 } 0x2300 = some (.stackOverflow 0x200#16) := by decide

/-- V6. -/
theorem test_ret : after { State.reset with sp := 1, stack := State.reset.stack.set 0 0x202#16 } 0x00EE
    (fun t => (t.pc, t.sp.val)) = some (0x202#16, 0) := by decide

/-- V7. -/
theorem test_ret_empty : stops State.reset 0x00EE = some (.stackUnderflow 0x200#16) := by decide

/-- V8, V9. -/
theorem test_se_imm : after (State.reset.setV 3 0x42) 0x3342 (·.pc) = some 0x204#16 ∧
    after (State.reset.setV 3 0x42) 0x3343 (·.pc) = some 0x202#16 := by decide

/-- V10, V11. -/
theorem test_sne_imm : after (State.reset.setV 3 0x42) 0x4342 (·.pc) = some 0x202#16 ∧
    after (State.reset.setV 3 0x42) 0x4300 (·.pc) = some 0x204#16 := by decide

/-- V12, V13. -/
theorem test_se_reg : after (withV [0, 7, 7]) 0x5120 (·.pc) = some 0x204#16 ∧
    after (withV [0, 7, 8]) 0x5120 (·.pc) = some 0x202#16 := by decide

/-- V15, V16. -/
theorem test_sne_reg : after (withV [0, 7, 8]) 0x9120 (·.pc) = some 0x204#16 ∧
    after (withV [0, 7, 7]) 0x9120 (·.pc) = some 0x202#16 := by decide

/-- V18, V19. -/
theorem test_jp_v0 : after (withV [0x10]) 0xB300 (·.pc) = some 0x310#16 ∧
    after (withV [0xFF]) 0xBF01 (·.pc) = some 0x1000#16 := by decide

/-- V14, V17, V23. -/
theorem test_unrecognized : after (withV [0, 7, 7]) 0x5121 (·.pc) = some 0x202#16 ∧
    after (withV [0, 7, 8]) 0x9121 (·.pc) = some 0x202#16 ∧
    after State.reset 0x0123 (·.pc) = some 0x202#16 := by decide

/-- V20, V21. -/
theorem test_fetch_at_the_end :
    after { State.reset with pc := 0xFFE } 0x3000 (·.pc) = some 0x1002#16 ∧
    fault? (step (store { State.reset with pc := 0xFFF } 0xFFF [0x60])) =
      some (.memoryBounds 0xFFF#16 0x1000) := by decide

/-- V22: a fetch at an odd address. -/
theorem test_fetch_odd : after { State.reset with pc := 0x201 } 0x6042 (fun t => (t.getV 0, t.pc)) =
    some (0x42#8, 0x203#16) := by decide

/-! ## Register arithmetic -/

/-- A1. -/
theorem test_ld_imm : after State.reset 0x6A5C (fun t => (t.getV 10, t.pc)) =
    some (0x5C#8, 0x202#16) := by decide

/-- A2, A3. -/
theorem test_add_imm :
    after ((withV [1]).setV VF 0x55) 0x70FF (fun t => (t.getV 0, t.getV VF)) = some (0#8, 0x55#8) ∧
    after (State.reset.setV VF 0xFF) 0x7F01 (·.getV VF) = some 0#8 := by decide

/-- A4. -/
theorem test_ld_reg : after (withV [0, 0x11, 0x22]) 0x8120 (·.getV 1) = some 0x22#8 := by decide

/-- A5. -/
theorem test_or : after (withV12F 0xF0 0x0F 0x77) 0x8121 (fun t => (t.getV 1, t.getV VF)) =
    some (0xFF#8, 0x77#8) := by decide

/-- A6. -/
theorem test_and : after (withV12F 0xF3 0x3F 0x77) 0x8122 (fun t => (t.getV 1, t.getV VF)) =
    some (0x33#8, 0x77#8) := by decide

/-- A7. -/
theorem test_xor : after (withV12F 0xFF 0x0F 0x77) 0x8123 (fun t => (t.getV 1, t.getV VF)) =
    some (0xF0#8, 0x77#8) := by decide

/-- A8, A9. -/
theorem test_add_reg :
    after (withV12F 0xFF 0x01 0) 0x8124 (fun t => (t.getV 1, t.getV VF)) = some (0#8, 1#8) ∧
    after (withV12F 0x7F 0x01 1) 0x8124 (fun t => (t.getV 1, t.getV VF)) = some (0x80#8, 0#8) := by
  decide

/-- A10. -/
theorem test_add_reg_vf : after (withV12F 0x01 0 0xFF) 0x8F14 (·.getV VF) = some 1#8 := by decide

/-- A11, A12, A13. -/
theorem test_sub :
    after (withV12F 5 3 0) 0x8125 (fun t => (t.getV 1, t.getV VF)) = some (2#8, 1#8) ∧
    after (withV12F 3 5 0x55) 0x8125 (fun t => (t.getV 1, t.getV VF)) = some (0xFE#8, 0#8) ∧
    after (withV12F 5 5 0) 0x8125 (fun t => (t.getV 1, t.getV VF)) = some (0#8, 1#8) := by decide

/-- A24. -/
theorem test_sub_vf : after (withV12F 0 1 0) 0x8F25 (·.getV VF) = some 0#8 := by decide

/-- A14. -/
theorem test_shr : after (withV12F 0xAA 5 0) 0x8126 (fun t => (t.getV 1, t.getV 2, t.getV VF)) =
    some (2#8, 5#8, 1#8) := by decide

/-- A16. -/
theorem test_shr_vf : after (withV12F 4 0 0x33) 0x8F16 (·.getV VF) = some 0#8 := by decide

/-- A17, A18. -/
theorem test_subn :
    after (withV12F 3 5 0) 0x8127 (fun t => (t.getV 1, t.getV VF)) = some (2#8, 1#8) ∧
    after (withV12F 5 3 0x55) 0x8127 (fun t => (t.getV 1, t.getV VF)) = some (0xFE#8, 0#8) := by decide

/-- A19, A20. -/
theorem test_shl :
    after (withV12F 0 0x81 0) 0x812E (fun t => (t.getV 1, t.getV VF)) = some (2#8, 1#8) ∧
    after (withV12F 0x40 0 0x55) 0x811E (fun t => (t.getV 1, t.getV VF)) = some (0x80#8, 0#8) := by
  decide

/-- A25. -/
theorem test_shl_from_vf : after (withV12F 0 0 0x80) 0x81FE (fun t => (t.getV 1, t.getV VF)) =
    some (0#8, 1#8) := by decide

/-- A22. -/
theorem test_rnd_masks : ((State.reset.setV 3 0xFF).afterRnd 3 0x0F 0xA7).getV 3 = 0x07#8 := by decide

/-- A23: a mask of 0 gives 0 whatever the draw. -/
theorem test_rnd_zero : after (State.reset.setV 3 0xFF) 0xC300 (·.pc) = some 0x202#16 ∧
    ∀ r : Byte, (State.reset.afterRnd 3 0 r).getV 3 = 0#8 := ⟨rfl, fun r => by simp [State.afterRnd]⟩

/-! ## Address register and memory blocks -/

/-- M1. -/
theorem test_ld_i : after State.reset 0xA123 (fun t => (t.I, t.pc)) = some (0x123#16, 0x202#16) := by
  decide

/-- M2, M3. -/
theorem test_add_i :
    after { (State.reset.setV 3 0x20).setV VF 0x42 with I := 0xFFF0 } 0xF31E
      (fun t => (t.I, t.getV VF)) = some (0x10#16, 0x42#8) ∧
    after { State.reset.setV 3 1 with I := 0xFFF } 0xF31E (·.I) = some 0x1000#16 := by decide

/-- M4, M5. -/
theorem test_ld_f : after (State.reset.setV 10 0x0A) 0xFA29 (·.I) = some 0x32#16 ∧
    after (State.reset.setV 5 0xFF) 0xF529 (·.I) = some 0x4FB#16 := by decide

/-- M9: the ones digit is `v % 10`. -/
theorem test_bcd : after { withV [0xFF] with I := 0x300 } 0xF033
    (fun t => (t.mem.read 0x300, t.mem.read 0x301, t.mem.read 0x302, t.I)) =
    some (2#8, 5#8, 5#8, 0x300#16) := by decide

/-- M10. -/
theorem test_bcd_bounds : stops { withV [7] with I := 0xFFE } 0xF033 =
    some (.memoryBounds 0x200#16 0x1000) := by decide

/-- M11. -/
theorem test_store_block : after { withV [1, 2, 3] with I := 0x400 } 0xF255
    (fun t => (t.mem.read 0x400, t.mem.read 0x401, t.mem.read 0x402, t.I)) =
    some (1#8, 2#8, 3#8, 0x403#16) := by decide

/-- M15. -/
theorem test_store_block_bounds : stops { State.reset with I := 0xFFE } 0xF255 =
    some (.memoryBounds 0x200#16 0x1000) := by decide

/-- M13: the registers above `Vx` stay. -/
theorem test_load_block :
    (next? (exec (.ldVxMem 2) (store { State.reset.setV 3 0x99 with I := 0x300 } 0x300 [2, 5, 4]))).map
      (fun t => (t.getV 0, t.getV 1, t.getV 2, t.getV 3, t.I)) =
    some (2#8, 5#8, 4#8, 0x99#8, 0x303#16) := by decide

/-- M16. -/
theorem test_load_block_bounds : stops { State.reset with I := 0xFFF } 0xF165 =
    some (.memoryBounds 0x200#16 0x1000) := by decide

/-! ## Display -/

/-- S1, DR8. -/
theorem test_cls :
    (State.reset.setPixel 1 1 true).bind (fun s => after s 0x00E0 (fun t => t.getPixel 1 1)) =
      some (some false) := by decide

/-- DR1: a draw across the right edge. -/
theorem test_drw_wraps :
    (next? (exec (.drw 0 1 1) (store { withV [60, 0] with I := 0x300 } 0x300 [0xFF]))).map
      (fun t => (row0 t [59, 60, 63, 0, 3, 4], t.getV VF)) =
    some ([false, true, true, true, true, false], 0#8) := by decide

/-- DR2: a collision. -/
theorem test_drw_collides :
    (next? (exec (.drw 0 1 1) (store { State.reset with
        I := 0x300, pix := State.reset.pix.put 0 0 true } 0x300 [0x81]))).map
      (fun t => (row0 t [0, 1, 7], t.getV VF)) = some ([false, false, true], 1#8) := by decide

/-- DR4. -/
theorem test_drw_bounds : stops { State.reset with I := 0xFFF } 0xD012 =
    some (.memoryBounds 0x200#16 0x1000) := by decide

/-! ## Keypad and timers -/

/-- K1, K2. -/
theorem test_skp : after (press (State.reset.setV 5 5) [5]) 0xE59E (·.pc) = some 0x204#16 ∧
    after (State.reset.setV 5 5) 0xE59E (·.pc) = some 0x202#16 := by decide

/-- K5. -/
theorem test_skp_range : stops (State.reset.setV 5 0x10) 0xE59E =
    some (.keyIndexRange 0x200#16 0x10#8) := by decide

/-- K3, K4. -/
theorem test_sknp : after (press (State.reset.setV 5 5) [5]) 0xE5A1 (·.pc) = some 0x202#16 ∧
    after (State.reset.setV 5 5) 0xE5A1 (·.pc) = some 0x204#16 := by decide

/-- K6. -/
theorem test_sknp_range : stops (State.reset.setV 5 0xFF) 0xE5A1 =
    some (.keyIndexRange 0x200#16 0xFF#8) := by decide

/-- K7. -/
theorem test_key_wait : after (State.reset.setV 3 0x77) 0xF30A (fun t => (t.pc, t.getV 3)) =
    some (0x200#16, 0x77#8) := by decide

/-- K8. -/
theorem test_key_wait_lowest : after (press State.reset [9, 3]) 0xF30A (fun t => (t.pc, t.getV 3)) =
    some (0x202#16, 3#8) := by decide

/-- K9. -/
theorem test_ld_dt : after (State.reset.setDT 0x3C) 0xF307 (·.getV 3) = some 0x3C#8 := by decide

/-- K10. -/
theorem test_set_dt : after (State.reset.setV 3 0x3C) 0xF315 (fun t => (t.DT, t.ST)) =
    some (60#8, 0#8) := by decide

/-- K11. -/
theorem test_set_st : after (State.reset.setV 3 2) 0xF318 (fun t => (t.DT, t.ST, t.shouldPlaySound)) =
    some (0#8, 2#8, some true) := by decide

/-! ## The host interface -/

/-- T1, T2, T3. -/
theorem test_tick :
    (State.reset.setDT 1).tick.map (fun t => (t.DT, t.ST)) = some (0#8, 0#8) ∧
    (State.reset.setST 2).tick.map (fun t => (t.DT, t.ST)) = some (0#8, 1#8) ∧
    ((State.reset.setDT 0xFF).setST 0x80).tick.map (fun t => (t.DT, t.ST)) = some (0xFE#8, 0x7F#8) := by
  decide

/-- T4: the last write wins, and nothing else changes. -/
theorem test_set_key :
    (State.reset.setKey 4 true).bind (·.setKey 4 false) = some State.reset ∧
    (State.reset.setKey 4 true).bind (·.queryKey 4) = some true := by decide

/-- S4, on the first and last font byte and the first image byte. -/
theorem test_construct : ∃ s, construct (Vector.replicate 80 0x11) (fun _ => 0x22) [0x60, 0xAA] = .ok s ∧
    s.pc = 0x200#16 ∧ s.mem.read 0x4F = 0x11#8 ∧ s.mem.read 0x50 = 0x22#8 ∧ s.mem.read 0x1FF = 0x22#8 ∧
    s.mem.read 0x200 = 0x60#8 ∧ s.mem.read 0x201 = 0xAA#8 ∧ s.mem.read 0x202 = 0x22#8 :=
  ⟨_, rfl, by decide +kernel⟩

/-- CN2. -/
theorem test_construct_too_long (font : Vector Byte 80) (u : Nat → Byte) :
    construct font u (List.replicate 3585 0) = .error ⟨3585⟩ := by
  rw [construct, List.length_replicate]
  rfl

/-- P5, its last step: the reason survives in the halted core. -/
theorem test_halted (s : State) (h : step s = .fault (.stackOverflow 0x200#16)) :
    s.executeOne.bind State.haltReason = some (.stackOverflow 0x200#16) := by
  simp [State.executeOne, h, State.haltReason, State.enterHalted]

/-! ## Witnesses: what meets the hypotheses of each obligation -/

/-- A core whose next instruction is `w`. -/
def ready (w : Nat) : State := State.reset.withFetchWord 16 w

theorem witness_DecodeOfEncodeGivesTheInstruction :
    (Instr.drw 15 0 15).wellFormed = true ∧ (Instr.dw 0xFFFF#16).wellFormed = true := by decide

theorem witness_DecoderAgreesWithTheOpcodeTable :
    ⟨"JP_nnn", 0x1000, 0xF000⟩ ∈ opcodeTable ∧ recognized 0xFFFF#16 = false := by decide

theorem witness_StepExecutesTheDecodedInstruction :
    let s := ({ State.reset with pc := 0xFFE } : State).withFetchWord 16 0x6042
    s.status = .running ∧ s.pc.toNat = 0xFFE ∧
      decodeBytes [s.mem.read s.pc.toNat, s.mem.read (s.pc.toNat + 1)] = .ok (.ldImm 0 0x42#8, []) := by
  decide

theorem witness_FetchIsBigEndianAndRangeChecked :
    (0xFFE#16).toNat ≤ 0xFFE ∧ (0xFFF#16).toNat = 0xFFF ∧ (0x1000#16).toNat ≥ 0x1000 ∧
      (0xFFFF#16).toNat ≥ 0x1000 := by decide

theorem witness_FetchFaultEndsTheStep :
    let s := ({ State.reset with pc := 0xFFF } : State)
    let t := ({ State.reset with pc := 0xFFFF } : State)
    s.status = .running ∧ s.pc.toNat ≥ 0xFFF ∧ t.status = .running ∧ t.pc.toNat ≥ 0xFFF := by decide

theorem witness_RunningStepGoesOnOrReportsItsOwnPc : State.reset.status = .running := rfl

/-- Each kind of condition at its boundary: raised, and just not. -/
theorem witness_FatalConditionsAreExactlyTheTable :
    fatalCondition (.call 0) { State.reset with sp := 16 } = some (.stackOverflow 0x1FE#16) ∧
    fatalCondition (.call 0) { State.reset with sp := 15 } = none ∧
    fatalCondition .ret State.reset = some (.stackUnderflow 0x1FE#16) ∧
    fatalCondition .ret { State.reset with sp := 1 } = none ∧
    fatalCondition (.drw 0 0 2) { State.reset with I := 0xFFF } = some (.memoryBounds 0x1FE#16 0x1000) ∧
    fatalCondition (.drw 0 0 1) { State.reset with I := 0xFFF } = none ∧
    fatalCondition (.drw 0 0 0) { State.reset with I := 0xFFFF } = none ∧
    fatalCondition (.ldBVx 0) { State.reset with I := 0xFFD } = none ∧
    fatalCondition (.ldMemVx 15) { State.reset with I := 0x1234 } = some (.memoryBounds 0x1FE#16 0x1234) ∧
    fatalCondition (.ldVxMem 0) { State.reset with I := 0xFFF } = none ∧
    fatalCondition (.skp 0) (withV [0x0F]) = none ∧
    fatalCondition (.sknp 0) (withV [0x10]) = some (.keyIndexRange 0x1FE#16 0x10#8) := by decide

theorem witness_FatalConditionHaltsTheCore :
    step (ready 0x00EE) = .fault (.stackUnderflow 0x200#16) := rfl

theorem witness_HaltedCoreOnlyShowsItsReason :
    (State.reset.enterHalted (.stackUnderflow 0x200#16)).status = .halted (.stackUnderflow 0x200#16) := rfl

theorem witness_UnrecognizedWordOnlyAdvancesPc :
    let s := ({ State.reset with pc := 0xFFE } : State).withFetchWord 16 0x5121
    s.status = .running ∧ s.pc.toNat ≤ 0xFFE ∧ recognized s.wordAtPc = false := by decide

theorem witness_SelfJumpStepChangesNothing : (ready 0x1200).isFinal :=
  ⟨rfl, by decide, 0x200#12, by decide, by decide⟩

theorem witness_StepKeepsInvariant :
    State.reset.Inv ∧ ∃ t, step State.reset = .next t := ⟨⟨rfl, by decide⟩, _, rfl⟩

theorem witness_ConstructedCoreMeetsInvariant :
    ∃ s, construct (Vector.replicate 80 0x11) (fun _ => 0x22) [0x60, 0xAA] = .ok s := ⟨_, rfl⟩

theorem witness_EveryHostRunKeepsInvariant :
    State.reset.Inv ∧ ∃ t, State.reset.runHost [.executeOne, .tick, .setKey 5 true] = some t :=
  ⟨⟨rfl, by decide⟩, _, rfl⟩

theorem witness_CanonicalMemoriesWithEqualReadsAreEqual :
    let m := Memory.write (Memory.write [] 0x300 1) 0x201 2
    let m' := Memory.write (Memory.write [] 0x201 2) 0x300 1
    m.wf ∧ m'.wf ∧ ∀ a, m.read a = m'.read a := ⟨by decide, by decide, fun _ => rfl⟩

theorem witness_ConstructionLeavesTheResetTable :
    (List.replicate 3584 (0x11 : Byte)).length ≤ 3584 ∧ ([] : List Byte).length ≤ 3584 := by
  rw [List.length_replicate]
  exact ⟨Nat.le_refl _, Nat.zero_le _⟩

theorem witness_TooLongImageIsALoadError : 3584 < (List.replicate 3585 (0x11 : Byte)).length := by
  rw [List.length_replicate]
  exact Nat.lt_succ_self _

theorem witness_ResetIsDefaultConstruction : ∃ font : Vector Byte 80, font.toList = defaultFont :=
  ⟨⟨defaultFont.toArray, by decide⟩, rfl⟩

/-- `x ≠ F`, the hypothesis of the result clauses of `8xy4`, `8xy5`, `8xy6`, `8xy7` and `8xyE`. -/
theorem witness_flag_writers_with_another_destination : (14 : RegIx) ≠ VF := by decide

theorem witness_BcdStoresThreeDigitsAtI :
    ({ State.reset with I := 0xFFD } : State).blockAddr + 2 ≤ 0xFFF ∧
    ({ State.reset with I := 0xFFE } : State).blockAddr + 2 > 0xFFF ∧
    ({ State.reset with I := 0xFFFF } : State).blockAddr + 2 > 0xFFF := by decide

/-- Serves both block obligations. -/
theorem witness_block_copies :
    ({ State.reset with I := 0xFF0 } : State).blockAddr + (15 : RegIx).val ≤ 0xFFF ∧
    ({ State.reset with I := 0xFF1 } : State).blockAddr + (15 : RegIx).val > 0xFFF ∧
    ({ State.reset with I := 0x1000 } : State).blockAddr + (0 : RegIx).val > 0xFFF ∧
    (0 : RegIx) ≤ 15 ∧ (14 : RegIx) < 15 := by decide

theorem witness_StoreThenLoadBlockRoundTrip :
    ({ State.reset with I := 0xFF0 } : State).I.toNat + (15 : RegIx).val ≤ 0xFFF ∧
    (15 : RegIx) ≤ 15 := by decide

/-- `Fx55` at the end of memory, and fetches just below its block and of its last word; a block of one
byte, fetched as a high byte; the same fetches for the three digits of `Fx33`. -/
theorem witness_FetchSeesStoredBytesAtOnce :
    (let s := ({ State.reset with I := 0xFF0 } : State)
     s.blockAddr + (15 : RegIx).val ≤ 0xFFF ∧
      (0xFEF#16).toNat ≤ 0xFFE ∧ (0 : RegIx) ≤ 15 ∧ (0xFEF#16).toNat + 1 = s.blockAddr + (0 : RegIx).val ∧
      (0xFFE#16).toNat ≤ 0xFFE ∧ (14 : RegIx) ≤ 15 ∧ (0xFFE#16).toNat = s.blockAddr + (14 : RegIx).val ∧
      (15 : RegIx) ≤ 15 ∧ (0xFFE#16).toNat + 1 = s.blockAddr + (15 : RegIx).val) ∧
    (let s := ({ State.reset with I := 0x300 } : State)
     s.blockAddr + (0 : RegIx).val ≤ 0xFFF ∧ (0x300#16).toNat ≤ 0xFFE ∧
      (0x300#16).toNat = s.blockAddr + (0 : RegIx).val) ∧
    (let s := ({ withV [0xFE] with I := 0xFFD } : State)
     s.blockAddr + 2 ≤ 0xFFF ∧ (0xFFC#16).toNat + 1 = s.blockAddr + 0 ∧
      (0xFFE#16).toNat = s.blockAddr + 1 ∧ (0xFFE#16).toNat + 1 = s.blockAddr + 2 ∧
      2 < (bcdDigits (s.getV 0)).length) := by decide

theorem witness_CallPushesReturnAddress :
    ({ State.reset with sp := 15 } : State).sp.val < 16 ∧
    ({ State.reset with sp := 16 } : State).sp.val = 16 := by decide

theorem witness_ReturnPopsIntoPc :
    ({ State.reset with sp := 16 } : State).sp.val = 15 + 1 ∧
    ({ State.reset with sp := 1 } : State).sp.val = 0 + 1 ∧ State.reset.sp.val = 0 := by decide

theorem witness_ReturnUndoesCall :
    let s := ({ State.reset with sp := 15 } : State)
    s.sp.val < 16 ∧ ∃ t, exec (.call 0x300#12) s = .next t ∧
      ∃ body : State, body.stack = t.stack ∧ body.sp = t.sp :=
  ⟨by decide, _, rfl, _, rfl, rfl⟩

theorem witness_DrawFlipsExactlyTheTargetedPixels :
    (List.replicate 15 (0xFF : Byte)).length ≤ 15 ∧
    spriteTargets 63 31 [0xC0] 0 31 ∧ ¬ spriteTargets 63 31 [] 0 31 :=
  ⟨by decide, ⟨0, 1, by decide, by decide, by decide, by decide, by decide⟩,
    fun ⟨_, _, h, _⟩ => absurd h (Nat.not_lt_zero _)⟩

theorem witness_DrawInstructionBlitsAndSetsCollision :
    (0 : RowCount).val = 0 ∧
    ({ State.reset with I := 0xFF1 } : State).I.toNat + ((15 : RowCount).val - 1) ≤ 0xFFF ∧
    0 < (15 : RowCount).val ∧
    ({ State.reset with I := 0xFF2 } : State).I.toNat + ((15 : RowCount).val - 1) > 0xFFF ∧
    ({ State.reset with I := 0x1000 } : State).I.toNat + ((1 : RowCount).val - 1) > 0xFFF := by decide

theorem witness_DrawIsSelfInverse : ∃ t, exec (.drw 15 0 15) State.reset = .next t := ⟨_, rfl⟩

theorem witness_KeySkipsTestTheLevel :
    ((withV [0x0F]).getV 0).toNat < 16 ∧ ((withV [0x10]).getV 0).toNat > 0xF := by decide

theorem witness_KeyWaitStoresLowestKeyOrRewinds :
    (press State.reset [15]).key[15] = true ∧
    (∀ (j : Nat) (h : j < 15), (press State.reset [15]).key[j] = false) ∧
    (press State.reset [0]).key[0] = true ∧
    (∀ (j : Nat) (h : j < 16), State.reset.key[j] = false) := by decide

theorem witness_WaitingStepChangesNothing :
    let s := ready 0xF30A
    s.status = .running ∧ s.pc.toNat ≤ 0xFFE ∧ decodeWord s.wordAtPc = .ldVxK 3 ∧
      ∀ (j : Nat) (h : j < 16), s.key[j] = false := by decide

theorem witness_TickCountsDownToZero : (State.reset.setDT 0xFF).status = .running := rfl

theorem witness_SetKeySetsOneKey : State.reset.status = .running ∧ 15 < 16 ∧ 16 ≤ 16 := by decide

theorem witness_SetPixelSetsOnePixel : State.reset.status = .running ∧ (63 < 64 ∧ 31 < 32) ∧
    (64 ≤ 64 ∨ 32 ≤ 31) ∧ (64 ≤ 63 ∨ 32 ≤ 32) := by decide

theorem witness_InstructionsChangeOnlyTheirParts : ∃ t, exec (.ldMemVx 15) State.reset = .next t := ⟨_, rfl⟩

theorem witness_RegistersWrittenOnlyByDestinationAndFlag :
    (∃ t, exec (.addReg 1 2) State.reset = .next t) ∧ ¬ mayWrite (.addReg 1 2) 2 := ⟨⟨_, rfl⟩, by simp only [mayWrite]; decide⟩

theorem witness_MemoryWrittenOnlyInTheBlockAtI :
    (∃ t, exec (.ldBVx 0) { State.reset with I := 0xFFD } = .next t) ∧
    (0xFFC < ({ State.reset with I := 0xFFD } : State).blockAddr ∨
      ({ State.reset with I := 0xFFD } : State).blockAddr + 3 ≤ 0xFFC) := ⟨⟨_, rfl⟩, by decide⟩

theorem witness_OnlyThreeInstructionsReadTheKeypad :
    (∀ x, Instr.drw 0 1 5 ≠ .skp x) ∧ (∀ x, Instr.drw 0 1 5 ≠ .sknp x) ∧
    (∀ x, Instr.drw 0 1 5 ≠ .ldVxK x) := by decide

/-- Two states that differ in the entry above `sp`. -/
theorem witness_VacatedStackEntriesAreUnobservable :
    let s := ({ State.reset with sp := 1 } : State)
    let s' := ({ s with stack := s.stack.set 1 0xABC#16 } : State)
    s ≠ s' ∧ SameLiveStack s s' := by
  refine ⟨by decide, rfl, ?_⟩
  intro k h hk
  have hk0 : k = 0 := Nat.lt_one_iff.1 hk
  subst hk0
  rfl

end Sys2Proof.Tests
end

/-! ## The outcomes of an instruction and of a step (00_scope.md R9, 60_exceptions.md R261) -/

section

namespace Sys2Proof.Machine

variable {s : State} {st : Status} {a n : Nat} {v : Byte} {bs : List Byte}

/-- The outcome is a next state with the status `st`, or a fatal condition recorded at the address
`p`; it is never a refusal. -/
def GoesOnOrReports (st : Status) (p : Word) (o : Outcome) : Prop :=
  (∃ t, o = .next t ∧ t.status = st) ∨ (∃ f, o = .fault f ∧ f.pc = p)

theorem State.skipIf_status (c : Bool) : (s.skipIf c).status = s.status := by
  cases c <;> rfl

/-- While an instruction executes, `faultPc` is the address it was fetched from. -/
theorem State.faultPc_advancePc (s : State) : s.advancePc.faultPc = s.pc :=
  BitVec.add_sub_cancel s.pc 2

/-! ### The partial operations report the executing instruction, or leave the status alone -/

theorem goesOnOrReports_pushPc {k : State → Outcome}
    (hk : ∀ t, t.status = s.status → GoesOnOrReports st s.faultPc (k t)) :
    GoesOnOrReports st s.faultPc (orRaise s.pushPc k) := by
  by_cases h : s.sp.val < 16
  · rw [State.pushPc_ok h]; exact hk _ rfl
  · rw [State.pushPc_error (by have := s.sp_le; omega)]; exact .inr ⟨_, rfl, rfl⟩

theorem goesOnOrReports_popPc {k : Word × State → Outcome}
    (hk : ∀ r, r.2.status = s.status → GoesOnOrReports st s.faultPc (k r)) :
    GoesOnOrReports st s.faultPc (orRaise s.popPc k) := by
  cases h : s.sp.val with
  | zero => rw [State.popPc_error h]; exact .inr ⟨_, rfl, rfl⟩
  | succ n => rw [State.popPc_ok (by have := s.sp_le; omega) h]; exact hk _ rfl

theorem goesOnOrReports_readBlock {k : List Byte → Outcome}
    (hk : ∀ bs, GoesOnOrReports st s.faultPc (k bs)) :
    GoesOnOrReports st s.faultPc (orRaise (s.readBlock a n) k) := by
  by_cases h : n = 0 ∨ a + (n - 1) ≤ 0xFFF
  · rw [State.readBlock_ok h]; exact hk _
  · rw [State.readBlock_error (by omega) (by omega)]; exact .inr ⟨_, rfl, rfl⟩

theorem goesOnOrReports_writeBlock {k : State → Outcome}
    (hk : ∀ t, t.status = s.status → GoesOnOrReports st s.faultPc (k t)) :
    GoesOnOrReports st s.faultPc (orRaise (s.writeBlock a bs) k) := by
  by_cases h : bs = [] ∨ a + (bs.length - 1) ≤ 0xFFF
  · obtain ⟨m, e, -, -⟩ := State.writeBlock_ok (s := s) h
    rw [e]; exact hk _ rfl
  · obtain ⟨hne, ha⟩ := not_or.1 h
    rw [State.writeBlock_error (List.length_pos_iff.2 hne) (by omega)]; exact .inr ⟨_, rfl, rfl⟩

theorem goesOnOrReports_keyDown {k : Bool → Outcome}
    (hk : ∀ down, GoesOnOrReports st s.faultPc (k down)) :
    GoesOnOrReports st s.faultPc (orRaise (s.keyDown v) k) := by
  by_cases h : v.toNat < 16
  · rw [State.keyDown_ok h]; exact hk _
  · rw [State.keyDown_error (by omega)]; exact .inr ⟨_, rfl, rfl⟩

/-! ### Every instruction, and the step -/

/-- A waiting `Fx0A` rewinds `pc`, any other writes a register (44_timers_keypad.md R240). -/
theorem execLdVxK_goesOn (x : RegIx) (s : State) :
    ∃ t, execLdVxK x s = .next t ∧ t.status = s.status := by
  unfold execLdVxK
  split
  · exact ⟨_, rfl, rfl⟩
  · exact ⟨_, rfl, rfl⟩

/-- An instruction keeps the status or reports itself. Only those with a partial operation can
report; the last case collects the plain updates, none of which writes `status`. -/
theorem exec_goesOnOrReports (i : Instr) (s : State) :
    GoesOnOrReports s.status s.faultPc (exec i s) := by
  cases i with
  | call => exact goesOnOrReports_pushPc fun _ ht => .inl ⟨_, rfl, ht⟩
  | ret => exact goesOnOrReports_popPc fun _ hr => .inl ⟨_, rfl, hr⟩
  | drw | ldVxMem => exact goesOnOrReports_readBlock fun _ => .inl ⟨_, rfl, rfl⟩
  | ldBVx | ldMemVx => exact goesOnOrReports_writeBlock fun _ ht => .inl ⟨_, rfl, ht⟩
  | skp | sknp => exact goesOnOrReports_keyDown fun _ => .inl ⟨_, rfl, State.skipIf_status _⟩
  | seImm | sneImm | seReg | sneReg => exact .inl ⟨_, rfl, State.skipIf_status _⟩
  | ldVxK x => exact .inl (execLdVxK_goesOn x s)
  | _ => exact .inl ⟨_, rfl, rfl⟩

/-- A step of a running core keeps it running or reports the `pc` it started from, in the fetch and
in the execution alike. -/
theorem step_goesOnOrReports (h : s.status = .running) :
    GoesOnOrReports .running s.pc (step s) := by
  by_cases hp : s.pc.toNat ≤ 0xFFE
  · rw [step_running h hp, ← s.faultPc_advancePc, ← h]
    exact exec_goesOnOrReports _ s.advancePc
  · rw [step_fetch_error h (by omega)]
    exact .inr ⟨_, rfl, rfl⟩

/-- Settles O8: a fetch fault records the fetched address, and `exec` runs with `pc` advanced by 2,
where every instruction keeps the status or reports `pc - 2`. -/
theorem runningStepGoesOnOrReportsItsOwnPc : Obligations.RunningStepGoesOnOrReportsItsOwnPc :=
  fun _ h => step_goesOnOrReports h

end Sys2Proof.Machine

end

/-! ## What an instruction changes (10_state.md R22 to R31, 20_memory.md R57) -/

section

namespace Sys2Proof.Machine

variable {i : Instr} {s t : State} {k x : RegIx} {a n : Nat} {bs : List Byte} {ps qs : List Part}

/-! ### Frames of the updates without a name, and of the partial operations -/

theorem sameExcept_stack (s : State) (st : Vector Word Config.stackDepth)
    (sp : Fin (Config.stackDepth + 1)) : SameExcept [.stack] s { s with stack := st, sp := sp } := by
  intro p hp; cases p <;> simp_all [Part.same, State.getV]

theorem sameExcept_draws (s : State) (n : Nat) : SameExcept [.draws] s { s with draws := n } := by
  intro p hp; cases p <;> simp_all [Part.same, State.getV]

theorem sameExcept_stack_pops (s : State) (st : Vector Word Config.stackDepth)
    (sp : Fin (Config.stackDepth + 1)) (n : Nat) :
    SameExcept [.stack, .pops] s { s with stack := st, sp := sp, pops := n } := by
  intro p hp; cases p <;> simp_all [Part.same, State.getV]

/-- Two changes, one after the other, change at most the parts that either may change. -/
theorem SameExcept.append {u : State} (h : SameExcept ps s t) (h' : SameExcept qs t u) :
    SameExcept (ps ++ qs) s u :=
  (h.mono fun _ => List.mem_append_left qs).trans (h'.mono fun _ => List.mem_append_right ps)

theorem sameExcept_of_pushPc (h : s.pushPc = .ok t) : SameExcept [.stack] s t := by
  by_cases hsp : s.sp.val < 16
  · rw [State.pushPc_ok hsp] at h
    cases h
    exact sameExcept_stack s _ _
  · rw [State.pushPc_error (by have := s.sp_le; omega)] at h
    cases h

theorem sameExcept_of_popPc {r : Word × State} (h : s.popPc = .ok r) :
    SameExcept [.stack, .pops] s r.2 := by
  cases hsp : s.sp.val with
  | zero => rw [State.popPc_error hsp] at h; cases h
  | succ n =>
    rw [State.popPc_ok (by have := s.sp_le; omega) hsp] at h
    cases h
    exact sameExcept_stack_pops s _ _ _

theorem sameExcept_of_writeBlock (h : s.writeBlock a bs = .ok t) : SameExcept [.memory] s t := by
  unfold State.writeBlock at h
  split at h
  · cases h
  · cases h
    exact sameExcept_mem s _

/-- A block read that goes on gives as many bytes as it was asked for. -/
theorem State.length_of_readBlock (h : s.readBlock a n = .ok bs) : bs.length = n := by
  by_cases hr : n = 0 ∨ a + (n - 1) ≤ 0xFFF
  · rw [State.readBlock_ok hr] at h
    cases h
    simp
  · rw [State.readBlock_error (by omega) (by omega)] at h
    cases h

/-- `Fx0A` rewinds `pc`, or writes `Vx` (44_timers_keypad.md R240). -/
theorem execLdVxK_cases (h : execLdVxK x s = .next t) : t = s.rewindPc ∨ ∃ b, t = s.setV x b := by
  unfold execLdVxK at h
  split at h
  · cases h; exact .inl rfl
  · cases h; exact .inr ⟨_, rfl⟩

/-! ### Every instruction changes only its parts -/

/-- The frame of each instruction is the frame of its update, or of its partial operation followed by
its update. -/
theorem exec_sameExcept (h : exec i s = .next t) : SameExcept (mayChange i) s t := by
  cases i with
  | cls => cases h; exact sameExcept_pix s _
  | dw => cases h; exact SameExcept.refl _ _
  | jp | jpV0 => cases h; exact sameExcept_setPc s _
  | seImm | sneImm | seReg | sneReg => cases h; exact sameExcept_skipIf s _
  | ldImm | addImm | ldReg | orReg | andReg | xorReg | ldVxDT => cases h; exact sameExcept_setV s _ _
  | addReg | sub | shr | subn | shl => cases h; exact sameExcept_setResultFlag s _ _ _
  | rnd => cases h; exact (sameExcept_setV s _ _).append (sameExcept_draws _ _)
  | ldI | addIVx | ldFVx => cases h; exact sameExcept_setI s _
  | ldDTVx => cases h; exact sameExcept_setDT s _
  | ldSTVx => cases h; exact sameExcept_setST s _
  | call =>
    obtain ⟨u, hu, ht⟩ := orRaise_eq_next h
    cases ht
    exact ((sameExcept_of_pushPc hu).append (sameExcept_setPc u _)).mono (by simp [mayChange])
  | ret =>
    obtain ⟨r, hr, ht⟩ := orRaise_eq_next h
    cases ht
    exact ((sameExcept_of_popPc hr).append (sameExcept_setPc r.2 _)).mono (by simp [mayChange])
  | drw =>
    obtain ⟨bs, -, ht⟩ := orRaise_eq_next h
    cases ht
    exact ((sameExcept_pix s _).append (sameExcept_setV _ VF _)).mono (by simp [mayChange])
  | skp | sknp =>
    obtain ⟨down, -, ht⟩ := orRaise_eq_next h
    cases ht
    exact sameExcept_skipIf s _
  | ldVxK =>
    obtain rfl | ⟨b, rfl⟩ := execLdVxK_cases h
    · exact (sameExcept_setPc s _).mono (by simp [mayChange])
    · exact (sameExcept_setV s _ b).mono (by simp [mayChange])
  | ldBVx =>
    obtain ⟨u, hu, ht⟩ := orRaise_eq_next h
    cases ht
    exact sameExcept_of_writeBlock hu
  | ldMemVx =>
    obtain ⟨u, hu, ht⟩ := orRaise_eq_next h
    cases ht
    exact (sameExcept_of_writeBlock hu).append (sameExcept_setI u _)
  | ldVxMem =>
    obtain ⟨bs, -, ht⟩ := orRaise_eq_next h
    cases ht
    exact (sameExcept_fillV s bs).append (sameExcept_setI _ _)

/-- Settles O54: each instruction is an update with a frame of its own, after a partial operation
with a frame where it has one. -/
theorem instructionsChangeOnlyTheirParts : Obligations.InstructionsChangeOnlyTheirParts :=
  fun _ _ _ h => exec_sameExcept h

/-! ### Every instruction writes only its registers -/

theorem State.getV_setV_ne (b : Byte) (h : k ≠ x) : (s.setV x b).getV k = s.getV k := by
  rw [State.getV_setV, if_neg h]

theorem State.getV_setResultFlag_ne (b : Byte) (c : Bool) (h : ¬ (k = x ∨ k = VF)) :
    (s.setResultFlag x b c).getV k = s.getV k :=
  sameRegsExcept_setResultFlag s x b c k (by simpa using h)

/-- An instruction whose list of parts leaves out the registers writes none of them. -/
theorem exec_getV_of_regs_not_mem (h : exec i s = .next t) (hr : Part.regs ∉ mayChange i) :
    t.getV k = s.getV k :=
  exec_sameExcept h .regs hr k

/-- The instructions that write a register are gone through one by one; the last case collects those
that write none. -/
theorem exec_getV_of_not_mayWrite (h : exec i s = .next t) (hk : ¬ mayWrite i k) :
    t.getV k = s.getV k := by
  cases i with
  | ldImm | addImm | ldReg | orReg | andReg | xorReg | ldVxDT | rnd =>
    cases h; exact State.getV_setV_ne _ hk
  | addReg | sub | shr | subn | shl => cases h; exact State.getV_setResultFlag_ne _ _ hk
  | drw =>
    obtain ⟨bs, -, ht⟩ := orRaise_eq_next h
    cases ht
    exact State.getV_setV_ne _ hk
  | ldVxK =>
    obtain rfl | ⟨b, rfl⟩ := execLdVxK_cases h
    · rfl
    · exact State.getV_setV_ne b hk
  | ldVxMem x =>
    obtain ⟨bs, hbs, ht⟩ := orRaise_eq_next h
    cases ht
    have hlen : bs.length = x.val + 1 := State.length_of_readBlock hbs
    have hxk : x.val < k.val := Nat.lt_of_not_le hk
    rw [State.getV_setI, State.getV_fillV, dif_neg (by omega)]
  | _ => exact exec_getV_of_regs_not_mem h (by simp [mayChange])

/-- Settles O55: a plain register write leaves every register but `Vx`, a flag writer every register
but `Vx` and VF, and `Fx65` fills exactly `x + 1` registers. -/
theorem registersWrittenOnlyByDestinationAndFlag :
    Obligations.RegistersWrittenOnlyByDestinationAndFlag :=
  fun _ _ _ _ h hk => exec_getV_of_not_mayWrite h hk

end Sys2Proof.Machine

end

/-! ## What an instruction does not read (10_state.md R26, R27, R31, R33) -/

section

namespace Sys2Proof.Machine

variable {i : Instr} {s s' t : State} {α β : Type}

/-! ### Changes of the parts that few instructions read -/

/-- A change of the stack entries, the sound timer and the keypad, and of nothing else. -/
structure HiddenChange where
  stack : Vector Word Config.stackDepth → Vector Word Config.stackDepth := id
  sound : Byte → Byte := id
  keypad : Vector Bool 16 → Vector Bool 16 := id

/-- The state after a change of its hidden parts. -/
def State.hide (g : HiddenChange) (s : State) : State :=
  { s with stack := g.stack s.stack, ST := g.sound s.ST, key := g.keypad s.key }

/-- The instruction neither reads nor overwrites a part that the change touches: calls and returns use
the stack (R26), `Fx18` writes the sound timer (R27), the key skips and `Fx0A` read the keypad (R31),
and the others use none of the three. -/
def HiddenChange.UnusedBy (g : HiddenChange) : Instr → Prop
  | .call _ | .ret => g.stack = id
  | .ldSTVx _ => g.sound = id
  | .skp _ | .sknp _ | .ldVxK _ => g.keypad = id
  | _ => True

/-! ### Outcomes -/

/-- Changing the next state of a partial operation's continuation. -/
theorem mapNext_orRaise (f : State → State) (r : Except Fault α) (c : α → Outcome) :
    mapNext f (orRaise r c) = orRaise r fun v => mapNext f (c v) := by
  cases r <;> rfl

theorem orRaise_map (f : α → β) (r : Except Fault α) (c : β → Outcome) :
    orRaise (r.map f) c = orRaise r fun v => c (f v) := by
  cases r <;> rfl

/-! ### The operations under a change -/

variable (g : HiddenChange)

theorem State.skipIf_hide (s : State) (c : Bool) : (s.hide g).skipIf c = (s.skipIf c).hide g := by
  cases c <;> rfl

theorem State.writeBlock_hide (s : State) (a : Nat) (bs : List Byte) :
    (s.hide g).writeBlock a bs = (s.writeBlock a bs).map (State.hide g) := by
  have hm : (s.hide g).mem.writeBlock (s.hide g).faultPc a bs = s.mem.writeBlock s.faultPc a bs := rfl
  unfold State.writeBlock
  rw [hm]
  cases s.mem.writeBlock s.faultPc a bs <;> rfl

theorem State.pushPc_hide (s : State) (h : g.stack = id) :
    (s.hide g).pushPc = s.pushPc.map (State.hide g) := by
  obtain ⟨stack, sound, keypad⟩ := g
  obtain rfl : stack = id := h
  by_cases hsp : s.sp.val < 16
  · rw [State.pushPc_ok hsp]; exact State.pushPc_ok (s := s.hide _) hsp
  · have hsp : s.sp.val = 16 := by have := s.sp_le; omega
    rw [State.pushPc_error hsp]; exact State.pushPc_error (s := s.hide _) hsp

theorem State.popPc_hide (s : State) (h : g.stack = id) :
    (s.hide g).popPc = s.popPc.map fun r => (r.1, r.2.hide g) := by
  obtain ⟨stack, sound, keypad⟩ := g
  obtain rfl : stack = id := h
  cases hsp : s.sp.val with
  | zero => rw [State.popPc_error hsp]; exact State.popPc_error (s := s.hide _) hsp
  | succ n =>
    have hn : n < 16 := by have := s.sp_le; omega
    rw [State.popPc_ok hn hsp]; exact State.popPc_ok (s := s.hide _) hn hsp

theorem State.key_hide (s : State) (h : g.keypad = id) : (s.hide g).key = s.key :=
  congrFun h s.key

theorem State.keyDown_hide (s : State) (v : Byte) (h : g.keypad = id) :
    (s.hide g).keyDown v = s.keyDown v := by
  unfold State.keyDown
  rw [State.key_hide g s h]; rfl

theorem State.anyKeyDown_hide (s : State) (h : g.keypad = id) : (s.hide g).anyKeyDown = s.anyKeyDown := by
  unfold State.anyKeyDown
  rw [State.key_hide g s h]

/-! ### Every instruction under a change -/

theorem execLdVxK_hide (x : RegIx) (s : State) (h : g.keypad = id) :
    execLdVxK x (s.hide g) = mapNext (State.hide g) (execLdVxK x s) := by
  unfold execLdVxK
  rw [State.anyKeyDown_hide g s h]
  cases s.anyKeyDown <;> rfl

/-- An instruction acts the same before and after a change of parts it does not use, and its next
states differ by that change. The last case collects the plain updates. -/
theorem exec_hide (s : State) (h : g.UnusedBy i) :
    exec i (s.hide g) = mapNext (State.hide g) (exec i s) := by
  cases i with
  | call => simp only [exec, execCall, State.pushPc_hide g s h, orRaise_map, mapNext_orRaise]; rfl
  | ret => simp only [exec, execRet, State.popPc_hide g s h, orRaise_map, mapNext_orRaise]; rfl
  | drw => simp only [exec, execDrw, mapNext_orRaise]; rfl
  | ldVxMem => simp only [exec, execLdVxMem, mapNext_orRaise]; rfl
  | ldBVx => simp only [exec, execLdBVx, State.writeBlock_hide, orRaise_map, mapNext_orRaise]; rfl
  | ldMemVx => simp only [exec, execLdMemVx, State.writeBlock_hide, orRaise_map, mapNext_orRaise]; rfl
  | skp =>
    simp only [exec, execSkp, State.keyDown_hide g s _ h, State.skipIf_hide, mapNext_orRaise]; rfl
  | sknp =>
    simp only [exec, execSknp, State.keyDown_hide g s _ h, State.skipIf_hide, mapNext_orRaise]; rfl
  | seImm | sneImm | seReg | sneReg => exact congrArg _ (State.skipIf_hide g s _)
  | ldVxK x => exact execLdVxK_hide g x s h
  | ldSTVx =>
    obtain ⟨stack, sound, keypad⟩ := g
    obtain rfl : sound = id := h
    rfl
  | _ => rfl

/-! ### The sound timer and the keypad -/

theorem HiddenChange.sound_unusedBy (f : Byte → Byte) (h : ∀ x, i ≠ .ldSTVx x) :
    ({ sound := f } : HiddenChange).UnusedBy i := by
  cases i with
  | ldSTVx x => exact absurd rfl (h x)
  | _ => trivial

theorem HiddenChange.keypad_unusedBy (f : Vector Bool 16 → Vector Bool 16) (hskp : ∀ x, i ≠ .skp x)
    (hsknp : ∀ x, i ≠ .sknp x) (hwait : ∀ x, i ≠ .ldVxK x) :
    ({ keypad := f } : HiddenChange).UnusedBy i := by
  cases i with
  | skp x => exact absurd rfl (hskp x)
  | sknp x => exact absurd rfl (hsknp x)
  | ldVxK x => exact absurd rfl (hwait x)
  | _ => trivial

/-- An instruction other than `Fx18` acts the same whatever ST holds, and leaves it. -/
theorem exec_setST (s : State) (b : Byte) (h : ∀ x, i ≠ .ldSTVx x) :
    exec i (s.setST b) = mapNext (fun t => t.setST b) (exec i s) :=
  exec_hide _ s (HiddenChange.sound_unusedBy (fun _ => b) h)

/-- Settles O57: `Fx18` overwrites ST, and no other instruction uses it. -/
theorem noInstructionReadsTheSoundTimer : Obligations.NoInstructionReadsTheSoundTimer := by
  intro i s b
  cases i with
  | ldSTVx => rfl
  | _ => exact exec_setST s b fun _ => Instr.noConfusion

/-- Settles O58: the levels of the keys are a change no other instruction uses. -/
theorem onlyThreeInstructionsReadTheKeypad : Obligations.OnlyThreeInstructionsReadTheKeypad :=
  fun _ s keys hskp hsknp hwait =>
    exec_hide _ s (HiddenChange.keypad_unusedBy (fun _ => keys) hskp hsknp hwait)

/-! ### Stack entries at and above `sp` -/

/-- The second outcome reports the fault the first does, or goes on where the first does, to a state
with the same live stack. -/
def SameLiveOutcome (o o' : Outcome) : Prop :=
  (∀ f, o = .fault f → o' = .fault f) ∧ ∀ t, o = .next t → ∃ t', o' = .next t' ∧ SameLiveStack t t'

theorem sameLiveOutcome_fault (f : Fault) : SameLiveOutcome (.fault f) (.fault f) :=
  ⟨fun _ hf => hf, fun _ ht => (nomatch ht)⟩

theorem sameLiveOutcome_next (h : SameLiveStack s s') : SameLiveOutcome (.next s) (.next s') :=
  ⟨fun _ hf => (nomatch hf), fun _ ht => by cases ht; exact ⟨s', rfl, h⟩⟩

theorem sameLiveStack_iff : SameLiveStack s s' ↔ ∃ st, s' = { s with stack := st } ∧
    ∀ (k : Nat) (h : k < 16), k < s.sp.val → st[k] = s.stack[k] := by
  constructor
  · rintro ⟨hs, hlive⟩
    exact ⟨s'.stack, hs, hlive⟩
  · rintro ⟨st, rfl, hlive⟩
    exact ⟨rfl, hlive⟩

/-- Both states push the same return address, so the entry that becomes live is the same. -/
theorem execCall_sameLive (nnn : Addr12) (h : SameLiveStack s s') :
    SameLiveOutcome (execCall nnn s) (execCall nnn s') := by
  obtain ⟨st, rfl, hlive⟩ := sameLiveStack_iff.1 h
  unfold execCall
  by_cases hsp : s.sp.val < 16
  · rw [State.pushPc_ok hsp, State.pushPc_ok (s := { s with stack := st }) hsp]
    refine sameLiveOutcome_next ⟨rfl, fun k hk hlt => ?_⟩
    have hle : k ≤ s.sp.val := Nat.le_of_lt_succ hlt
    change (st.set s.sp.val s.pc hsp)[k] = (s.stack.set s.sp.val s.pc hsp)[k]
    rw [Vector.getElem_set, Vector.getElem_set]
    split
    · rfl
    · exact hlive k hk (by omega)
  · have hsp : s.sp.val = 16 := by have := s.sp_le; omega
    rw [State.pushPc_error hsp, State.pushPc_error (s := { s with stack := st }) hsp]
    exact sameLiveOutcome_fault _

/-- The entry both states pop is live, and the entries that stay live are untouched. -/
theorem execRet_sameLive (h : SameLiveStack s s') : SameLiveOutcome (execRet s) (execRet s') := by
  obtain ⟨st, rfl, hlive⟩ := sameLiveStack_iff.1 h
  unfold execRet
  cases hsp : s.sp.val with
  | zero =>
    rw [State.popPc_error hsp, State.popPc_error (s := { s with stack := st }) hsp]
    exact sameLiveOutcome_fault _
  | succ n =>
    have hn : n < 16 := by have := s.sp_le; omega
    have hpop : st[n] = s.stack[n] := hlive n hn (by omega)
    rw [State.popPc_ok hn hsp, State.popPc_ok (s := { s with stack := st }) hn hsp]
    simp only [orRaise_ok, hpop]
    refine sameLiveOutcome_next ⟨rfl, fun k hk hlt => ?_⟩
    change k < n at hlt
    change (st.set n (Config.poppedEntry s.pops) hn)[k] =
      (s.stack.set n (Config.poppedEntry s.pops) hn)[k]
    rw [Vector.getElem_set_ne _ _ (by omega), Vector.getElem_set_ne _ _ (by omega)]
    exact hlive k hk (by omega)

theorem HiddenChange.stack_unusedBy
    (f : Vector Word Config.stackDepth → Vector Word Config.stackDepth)
    (h : Part.stack ∉ mayChange i) : ({ stack := f } : HiddenChange).UnusedBy i := by
  cases i with
  | call | ret => simp [mayChange] at h
  | _ => trivial

/-- An instruction that leaves the stack alone acts the same on every stack, and the entries that
were live are the live ones after it. -/
theorem exec_sameLive_of_stack_not_mem (hi : Part.stack ∉ mayChange i) (h : SameLiveStack s s') :
    SameLiveOutcome (exec i s) (exec i s') := by
  obtain ⟨st, rfl, hlive⟩ := sameLiveStack_iff.1 h
  have he : exec i { s with stack := st } = mapNext (fun t => { t with stack := st }) (exec i s) :=
    exec_hide _ s (HiddenChange.stack_unusedBy (fun _ => st) hi)
  rw [he]
  cases ho : exec i s with
  | fault f => exact sameLiveOutcome_fault f
  | refused e => exact ⟨fun _ hf => (nomatch hf), fun _ ht => (nomatch ht)⟩
  | next t =>
    obtain ⟨hst, hsp⟩ := exec_sameExcept ho .stack hi
    refine sameLiveOutcome_next (sameLiveStack_iff.2 ⟨st, rfl, fun k hk hlt => ?_⟩)
    rw [hst]
    exact hlive k hk (by rwa [← hsp])

/-- Settles O59: `2nnn` and `00EE` use only live entries, and no other instruction uses the stack. -/
theorem vacatedStackEntriesAreUnobservable : Obligations.VacatedStackEntriesAreUnobservable := by
  intro i s s' h
  cases i with
  | call nnn => exact execCall_sameLive nnn h
  | ret => exact execRet_sameLive h
  | _ => exact exec_sameLive_of_stack_not_mem (by simp [mayChange]) h

end Sys2Proof.Machine

end

/-! ## The state after construction (10_state.md R34, 70_reset_and_hazards.md R290) -/

section

namespace Sys2Proof.Machine

variable {font : Vector Byte Config.fontBytes} {unloaded : Nat → Byte} {image bs : List Byte}
  {a j : Nat} {b : Byte}

/-- Settles O15: the reset state runs, and lists no cell of memory. -/
theorem resetMeetsInvariant : Obligations.ResetMeetsInvariant :=
  ⟨rfl, Memory.wf_nil⟩

/-- An image that fits constructs the reset state with the construction bytes as its memory. -/
theorem construct_ok (h : image.length ≤ 3584) : construct font unloaded image =
    .ok { State.reset with mem := Memory.ofBytes 0 (constructionBytes font unloaded image) } :=
  if_neg (Nat.not_lt.2 h)

theorem Memory.read_ofBytes_zero (h : bs[a]? = some b) : (Memory.ofBytes 0 bs).read a = b := by
  obtain ⟨ha, hb⟩ := List.getElem?_eq_some_iff.1 h
  rw [Memory.read_ofBytes, dif_pos ⟨Nat.zero_le a, ha⟩]
  exact hb

/-! ### The four regions of the construction bytes -/

theorem constructionBytes_font (h : j < 80) :
    (constructionBytes font unloaded image)[j]? = some font[j] := by
  rw [constructionBytes, List.getElem?_append_left (by simpa using h)]
  simp [h]

theorem constructionBytes_between (h : j < 0x1B0) :
    (constructionBytes font unloaded image)[80 + j]? = some (unloaded (80 + j)) := by
  rw [constructionBytes, List.getElem?_append_right (by simp), List.getElem?_append_left (by simpa using h)]
  simp [h]

theorem constructionBytes_from_loadAddress :
    (constructionBytes font unloaded image)[0x200 + j]? =
      (image ++ (List.range' (0x200 + image.length) (3584 - image.length)).map unloaded)[j]? := by
  have hfont : font.toList.length = 80 := font.length_toList
  have hbetween : ((List.range' 0x050 0x1B0).map unloaded).length = 0x1B0 := by simp
  rw [constructionBytes, List.getElem?_append_right (by omega), List.getElem?_append_right (by omega),
    hfont, hbetween, show 0x200 + j - 80 - 0x1B0 = j by omega]

theorem constructionBytes_image (h : j < image.length) :
    (constructionBytes font unloaded image)[0x200 + j]? = some image[j] := by
  rw [constructionBytes_from_loadAddress, List.getElem?_append_left h, List.getElem?_eq_getElem h]

theorem constructionBytes_after (h : image.length + j < 3584) :
    (constructionBytes font unloaded image)[0x200 + image.length + j]? =
      some (unloaded (0x200 + image.length + j)) := by
  rw [Nat.add_assoc, constructionBytes_from_loadAddress, List.getElem?_append_right (by omega)]
  simp [show j < 3584 - image.length by omega, Nat.add_assoc]

/-- An address that neither the font nor the image covers lies between them or after the image. -/
theorem constructionBytes_unloaded (h : 80 ≤ a) (h' : a < 0x1000)
    (hout : a < 0x200 ∨ 0x200 + image.length ≤ a) :
    (constructionBytes font unloaded image)[a]? = some (unloaded a) := by
  rcases hout with hlt | hle
  · obtain ⟨j, rfl⟩ := Nat.exists_eq_add_of_le h
    exact constructionBytes_between (by omega)
  · obtain ⟨j, rfl⟩ := Nat.exists_eq_add_of_le hle
    exact constructionBytes_after (by omega)

/-! ### Registers, stack, pixels and keys -/

theorem State.reset_getV (x : RegIx) : State.reset.getV x = 0#8 := by
  simp [State.getV, State.reset]

theorem State.reset_pix_get (c : Fin 64) (r : Fin 32) : State.reset.pix.get c r = false :=
  Framebuffer.get_clear

/-- Settles O19: every part but memory is that of the reset state, and memory reads as the
construction bytes. -/
theorem constructionLeavesTheResetTable : Obligations.ConstructionLeavesTheResetTable := by
  intro font unloaded image hlen
  refine ⟨_, construct_ok hlen, rfl, State.reset_getV, rfl, rfl, ?stack, rfl, rfl,
    State.reset_pix_get, ?keys, rfl, ?font, ?image, ?rest⟩
  case stack => exact fun k hk => Vector.getElem_replicate hk
  case keys => exact fun k hk => Vector.getElem_replicate hk
  case font => exact fun j hj => Memory.read_ofBytes_zero (constructionBytes_font hj)
  case image => exact fun j hj => Memory.read_ofBytes_zero (constructionBytes_image hj)
  case rest =>
    exact fun a h h' hout => Memory.read_ofBytes_zero (constructionBytes_unloaded h h' hout)

end Sys2Proof.Machine

end

/-! ## The fetch and the step (20_memory.md R52, R53) -/

section

namespace Sys2Proof.Machine

theorem firstOutOfRange_of_fetch_fault {a : Nat} (h : a ≥ 0xFFF) :
    firstOutOfRange a = if a = 0xFFF then 0x1000 else a := by
  by_cases ha : a = 0xFFF
  · rw [firstOutOfRange, if_neg (by omega), if_pos ha]
  · rw [firstOutOfRange, if_pos (by omega), if_neg ha]

/-- Settles O5: two bytes decode to the instruction of the word they join to, which is the word the
step fetches. -/
theorem stepExecutesTheDecodedInstruction : Obligations.StepExecutesTheDecodedInstruction := by
  intro s i hs hp hi
  cases hi
  exact step_running hs hp

/-- Settles O6: the fetched word joins the byte at the lower address, as the high one, to the next. -/
theorem fetchIsBigEndianAndRangeChecked : Obligations.FetchIsBigEndianAndRangeChecked := by
  refine fun m a =>
    ⟨fun h => ⟨_, Memory.fetch16_ok h, toNat_joinBytes _ _⟩, fun h => ?low, fun h => ?high⟩
  case low => rw [Memory.fetch16_error (by omega), firstOutOfRange_of_fetch_fault (by omega), if_pos h]
  case high =>
    rw [Memory.fetch16_error (by omega), firstOutOfRange_of_fetch_fault (by omega), if_neg (by omega)]

/-- Settles O7: the step of a running core ends in the fault of its fetch. -/
theorem fetchFaultEndsTheStep : Obligations.FetchFaultEndsTheStep := by
  intro s hs hp
  rw [step_fetch_error hs hp, firstOutOfRange_of_fetch_fault hp]

end Sys2Proof.Machine

end

/-! ## Canonical memories (20_memory.md R50, assumption log 10) -/

section

namespace Sys2Proof.Machine

variable {m m' : Memory} {c c' : Host.Cell} {a : Nat}

/-- A canonical memory that reads the same as another does not begin at a lower address: below its
first listed address the other reads as unlisted. -/
theorem Memory.head_le_of_read_eq (h : Memory.wf (c :: m)) (h' : Memory.wf (c' :: m'))
    (hr : ∀ a, Memory.read (c :: m) a = Memory.read (c' :: m') a) : c'.1 ≤ c.1 := by
  by_contra hlt
  obtain ⟨hhead, hne⟩ := read_head h
  exact hne (by rw [← hhead, hr, read_below_head h' (Nat.lt_of_not_le hlt)])

/-- Without its first cell a canonical memory reads as before, but for the address of that cell. -/
theorem Memory.read_tail (h : Memory.wf (c :: m)) :
    Memory.read m a = if c.1 = a then unlisted a else Memory.read (c :: m) a := by
  by_cases ha : c.1 = a
  · rw [if_pos ha]
    exact read_eq_unlisted fun d hd => (ha ▸ (wf_cons.1 h).1 d hd).ne'
  · rw [if_neg ha, read_cons, if_neg ha]

/-- The reads of a canonical memory tell its first cell, and the reads of the rest. -/
theorem Memory.eq_of_read_eq (hm : m.wf) (hm' : m'.wf) (hr : ∀ a, m.read a = m'.read a) : m = m' := by
  induction m generalizing m' with
  | nil =>
    cases m' with
    | nil => rfl
    | cons c' m' =>
      obtain ⟨hhead, hne⟩ := read_head hm'
      exact absurd (hhead.symm.trans (hr c'.1).symm) hne
  | cons c m ih =>
    cases m' with
    | nil =>
      obtain ⟨hhead, hne⟩ := read_head hm
      exact absurd (hhead.symm.trans (hr c.1)) hne
    | cons c' m' =>
      have haddr : c.1 = c'.1 :=
        Nat.le_antisymm (head_le_of_read_eq hm' hm fun a => (hr a).symm) (head_le_of_read_eq hm hm' hr)
      have hbyte : c.2 = c'.2 := by
        rw [← (read_head hm).1, ← (read_head hm').1, hr, haddr]
      have htail : m = m' := by
        obtain ⟨-, -, -, hw⟩ := wf_cons.1 hm
        obtain ⟨-, -, -, hw'⟩ := wf_cons.1 hm'
        exact ih hw hw' fun a => by rw [read_tail hm, read_tail hm', haddr, hr]
      rw [Prod.ext haddr hbyte, htail]

/-- Settles O18, by induction on the cells. -/
theorem canonicalMemoriesWithEqualReadsAreEqual : Obligations.CanonicalMemoriesWithEqualReadsAreEqual :=
  fun _ _ hm hm' hr => Memory.eq_of_read_eq hm hm' hr

end Sys2Proof.Machine

end

/-! ## What an instruction stores (20_memory.md R55, R57) -/

section

namespace Sys2Proof.Machine

variable {i : Instr} {s t : State} {x : RegIx} {a k : Nat} {bs : List Byte}

/-- The bytes an instruction stores from `I` on: the digits of `Vx` for `Fx33`, the registers up to
`Vx` for `Fx55`, none for any other (20_memory.md R57). -/
def storedBytes : Instr → State → List Byte
  | .ldBVx x, s => bcdDigits (s.getV x)
  | .ldMemVx x, s => s.blockRegs x
  | _, _ => []

/-! ### The memory after a block write, and after the operations that write none -/

/-- A block write that goes on was in range: it leaves a memory that holds the bytes, reads as before
elsewhere, and is canonical if the old one was. -/
theorem State.mem_of_writeBlock (h : s.writeBlock a bs = .ok t) : (s.mem.wf → t.mem.wf) ∧
    ∀ b, t.mem.read b = if h : a ≤ b ∧ b - a < bs.length then bs[b - a] else s.mem.read b := by
  by_cases hr : bs = [] ∨ a + (bs.length - 1) ≤ 0xFFF
  · obtain ⟨m, e, hw, hread⟩ := State.writeBlock_ok (s := s) hr
    rw [e] at h
    cases h
    exact ⟨hw, hread⟩
  · obtain ⟨hne, ha⟩ := not_or.1 hr
    rw [State.writeBlock_error (List.length_pos_iff.2 hne) (by omega)] at h
    cases h

theorem State.mem_of_pushPc (h : s.pushPc = .ok t) : t.mem = s.mem := by
  by_cases hsp : s.sp.val < 16
  · rw [State.pushPc_ok hsp] at h
    cases h
    rfl
  · rw [State.pushPc_error (by have := s.sp_le; omega)] at h
    cases h

theorem State.mem_of_popPc {r : Word × State} (h : s.popPc = .ok r) : r.2.mem = s.mem := by
  cases hsp : s.sp.val with
  | zero => rw [State.popPc_error hsp] at h; cases h
  | succ n =>
    rw [State.popPc_ok (by have := s.sp_le; omega) hsp] at h
    cases h
    rfl

theorem State.mem_skipIf (c : Bool) : (s.skipIf c).mem = s.mem := by
  cases c <;> rfl

/-! ### Every instruction leaves the memory of one block write -/

/-- An instruction that stores nothing leaves the memory as it is, as data. -/
theorem exec_mem_of_storedBytes_nil (h : exec i s = .next t) (hi : storedBytes i s = []) :
    t.mem = s.mem := by
  cases i with
  | call =>
    obtain ⟨u, hu, ht⟩ := orRaise_eq_next h
    cases ht
    exact (State.setPc_mem u _).trans (State.mem_of_pushPc hu)
  | ret =>
    obtain ⟨r, hr, ht⟩ := orRaise_eq_next h
    cases ht
    exact (State.setPc_mem r.2 _).trans (State.mem_of_popPc hr)
  | drw | ldVxMem =>
    obtain ⟨bs, -, ht⟩ := orRaise_eq_next h
    cases ht
    rfl
  | skp | sknp =>
    obtain ⟨down, -, ht⟩ := orRaise_eq_next h
    cases ht
    exact State.mem_skipIf _
  | seImm | sneImm | seReg | sneReg => cases h; exact State.mem_skipIf _
  | ldVxK =>
    obtain rfl | ⟨b, rfl⟩ := execLdVxK_cases h
    · rfl
    · rfl
  | ldBVx => cases hi
  | ldMemVx x => exact absurd (congrArg List.length hi) (by simp [storedBytes, State.length_blockRegs])
  | _ => cases h; rfl

/-- The memory an instruction leaves is that of a write of its stored bytes from `I` on. -/
theorem exec_mem_of_writeBlock (h : exec i s = .next t) :
    ∃ u, s.writeBlock s.blockAddr (storedBytes i s) = .ok u ∧ t.mem = u.mem := by
  cases i with
  | ldBVx =>
    obtain ⟨u, hu, ht⟩ := orRaise_eq_next h
    cases ht
    exact ⟨t, hu, rfl⟩
  | ldMemVx =>
    obtain ⟨u, hu, ht⟩ := orRaise_eq_next h
    cases ht
    exact ⟨u, hu, State.setI_mem u _⟩
  | _ => exact ⟨s, rfl, exec_mem_of_storedBytes_nil h rfl⟩

theorem exec_wf (h : exec i s = .next t) (hm : s.mem.wf) : t.mem.wf := by
  obtain ⟨u, hu, ht⟩ := exec_mem_of_writeBlock h
  exact ht ▸ (State.mem_of_writeBlock hu).1 hm

theorem exec_read (h : exec i s = .next t) (b : Nat) :
    t.mem.read b = if h : s.blockAddr ≤ b ∧ b - s.blockAddr < (storedBytes i s).length
      then (storedBytes i s)[b - s.blockAddr] else s.mem.read b := by
  obtain ⟨u, hu, ht⟩ := exec_mem_of_writeBlock h
  rw [ht, (State.mem_of_writeBlock hu).2]

theorem exec_read_outside (h : exec i s = .next t)
    (ha : a < s.blockAddr ∨ s.blockAddr + (storedBytes i s).length ≤ a) :
    t.mem.read a = s.mem.read a := by
  rw [exec_read h, dif_neg (by omega)]

theorem exec_read_stored (h : exec i s = .next t) (hk : k < (storedBytes i s).length) :
    t.mem.read (s.blockAddr + k) = (storedBytes i s)[k] := by
  rw [exec_read h, dif_pos ⟨by omega, by omega⟩]
  simp only [Nat.add_sub_cancel_left]

/-- Settles O56: outside the stored bytes memory reads as before, and only `Fx33` and `Fx55` store
any. -/
theorem memoryWrittenOnlyInTheBlockAtI : Obligations.MemoryWrittenOnlyInTheBlockAtI := by
  intro i s t a h ha
  cases i with
  | ldBVx => exact exec_read_outside h ha
  | ldMemVx => exact exec_read_outside h (by rwa [storedBytes, State.length_blockRegs])
  | _ => exact exec_read_outside h (Nat.lt_or_ge a _)

/-- Settles O14: the next state of a running core runs, and its memory is that of a block write in
range, which keeps the canonical form. -/
theorem stepKeepsInvariant : Obligations.StepKeepsInvariant := by
  intro s t ⟨hrun, hwf⟩ hstep
  have hstatus : t.status = .running := by
    obtain ⟨t', ht', hrun'⟩ | ⟨f, hf, -⟩ := step_goesOnOrReports hrun
    · cases hstep.symm.trans ht'
      exact hrun'
    · cases hstep.symm.trans hf
  obtain ⟨-, -, hexec⟩ := step_eq_next hstep
  exact ⟨hstatus, exec_wf hexec hwf⟩

/-! ### A fetch right after a store (20_memory.md R62) -/

/-- Every stored byte is the high byte of a fetch at its address, and the low byte of a fetch one
below. -/
theorem fetch_after_exec (h : exec i s = .next t) (w : Word) (hw : w.toNat ≤ 0xFFE) :
    ∃ op, ({ t with pc := w } : State).fetch = .ok op ∧
      (∀ (k : Nat) (hk : k < (storedBytes i s).length), w.toNat = s.blockAddr + k →
        highByte op = (storedBytes i s)[k]) ∧
      (∀ (k : Nat) (hk : k < (storedBytes i s).length), w.toNat + 1 = s.blockAddr + k →
        lowByte op = (storedBytes i s)[k]) := by
  refine ⟨_, Memory.fetch16_ok hw, fun k hk e => ?_, fun k hk e => ?_⟩
  · rw [highByte_joinBytes, e, exec_read_stored h hk]
  · rw [lowByte_joinBytes, e, exec_read_stored h hk]

/-- A block write in range goes on, whatever plain update follows it. -/
theorem orRaise_writeBlock_completes (f : State → State) (h : bs = [] ∨ a + (bs.length - 1) ≤ 0xFFF) :
    ∃ t, orRaise (s.writeBlock a bs) (fun u => .next (f u)) = .next t := by
  obtain ⟨m, e, -, -⟩ := State.writeBlock_ok (s := s) h
  rw [e]
  exact ⟨_, rfl⟩

theorem exec_ldMemVx_completes (h : s.blockAddr + x.val ≤ 0xFFF) : ∃ t, exec (.ldMemVx x) s = .next t :=
  orRaise_writeBlock_completes (·.setI (s.afterBlock x)) (.inr (by rwa [State.length_blockRegs]))

theorem exec_ldBVx_completes (h : s.blockAddr + 2 ≤ 0xFFF) : ∃ t, exec (.ldBVx x) s = .next t :=
  orRaise_writeBlock_completes id (.inr h)

/-- Settles O36: both instructions complete, and what a fetch reads of their stored bytes is the byte
stored, `Vk` for `Fx55` and a digit for `Fx33`. -/
theorem fetchSeesStoredBytesAtOnce : Obligations.FetchSeesStoredBytesAtOnce := by
  refine ⟨fun s x a hr ha => ?regs, fun s x a hr ha => ?digits⟩
  case regs =>
    obtain ⟨t, ht⟩ := exec_ldMemVx_completes hr
    obtain ⟨op, hop, hhigh, hlow⟩ := fetch_after_exec ht a ha
    have hlen (k : RegIx) (hk : k ≤ x) : k.val < (s.blockRegs x).length := by
      rw [State.length_blockRegs]
      exact Nat.lt_succ_of_le hk
    exact ⟨t, op, ht, hop,
      fun k hk e => (hhigh k (hlen k hk) e).trans (State.getElem_blockRegs _ _),
      fun k hk e => (hlow k (hlen k hk) e).trans (State.getElem_blockRegs _ _)⟩
  case digits =>
    obtain ⟨t, ht⟩ := exec_ldBVx_completes (x := x) hr
    obtain ⟨op, hop, hhigh, hlow⟩ := fetch_after_exec ht a ha
    exact ⟨t, op, ht, hop, hhigh, hlow⟩

end Sys2Proof.Machine

end

/-! ## The encoding (30_encoding.md R80 to R86) -/

section

namespace Sys2Proof

open Laws.EncodingRow (HasRow)

variable {v w : Word}

/-! ### The encoding of what a word decodes to

In a split of `decodeWord` the case `h_1` is the family 0x0, `h_2` the family 0x1, up to `h_16`, the
family 0xF. -/

/-- The family 0xF is the one nibble that the arms before it leave. -/
theorem nibble_eq_F : ∀ t : BitVec 4, t ∉ [0x0#4, 0x1#4, 0x2#4, 0x3#4, 0x4#4, 0x5#4, 0x6#4, 0x7#4,
    0x8#4, 0x9#4, 0xA#4, 0xB#4, 0xC#4, 0xD#4, 0xE#4] → t = 0xF#4 := by decide

theorem encode_decodeArith (h : fieldTop w = 0x8#4) : encode (decodeArith w) = w := by
  unfold decodeArith
  split
  case h_10 => rfl
  all_goals next hn => rw [encode, ← h, ← hn, wordXYN_fields]

theorem encode_decodeKeySkip (h : fieldTop w = 0xE#4) : encode (decodeKeySkip w) = w := by
  unfold decodeKeySkip
  split
  case h_3 => rfl
  all_goals next hb => rw [encode, ← h, ← hb, wordXNN_fields]

theorem encode_decodeMisc (h : fieldTop w = 0xF#4) : encode (decodeMisc w) = w := by
  unfold decodeMisc
  split
  case h_10 => rfl
  all_goals next hb => rw [encode, ← h, ← hb, wordXNN_fields]

/-- Each arm keeps the fields of its pattern, and the word is rebuilt from its fields. -/
theorem encode_decodeWord (w : Word) : encode (decodeWord w) = w := by
  unfold decodeWord
  split
  case h_1 =>
    split_ifs with hcls hret
    · exact hcls.symm
    · exact hret.symm
    · rfl
  case h_6 | h_10 =>
    next h =>
    split_ifs with hn
    · rw [encode, ← h, ← hn, wordXYN_fields]
    · rfl
  case h_2 | h_3 | h_11 | h_12 => next h => rw [encode, ← h, wordNNN_fields]
  case h_4 | h_5 | h_7 | h_8 | h_13 => next h => rw [encode, ← h, wordXNN_fields]
  case h_9 => next h => exact encode_decodeArith h
  case h_14 => next h => rw [encode, ← h]; exact wordXYN_fields w
  case h_15 => next h => exact encode_decodeKeySkip h
  case h_16 => exact encode_decodeMisc (nibble_eq_F _ (by simp_all))

/-! ### The decoder and the rows of the opcode table -/

/-- The bits of a word that the decoder's switch looks at, by the family of the word. -/
def familyMask : BitVec 4 → Word
  | 0x0#4 => 0xFFFF
  | 0x5#4 | 0x8#4 | 0x9#4 => 0xF00F
  | 0xE#4 | 0xF#4 => 0xF0FF
  | _ => 0xF000

/-- Every family's mask keeps the family. -/
theorem fieldTop_and_familyMask (w : Word) (t : BitVec 4) :
    fieldTop (w &&& familyMask t) = fieldTop w := by
  unfold familyMask
  split
  case h_1 => exact congrArg fieldTop BitVec.and_allOnes
  case h_2 | h_3 | h_4 => rw [and_F00F, fieldTop_wordXYN]
  case h_5 | h_6 => rw [and_F0FF, fieldTop_wordXNN]
  case h_7 => rw [and_F000, fieldTop_wordNNN]

theorem fieldN_of_and_F00F (h : w &&& 0xF00F = v) : fieldN w = fieldN v := by
  rw [← h, and_F00F, fieldN_wordXYN]

theorem fieldNN_of_and_F0FF (h : w &&& 0xF0FF = v) : fieldNN w = fieldNN v := by
  rw [← h, and_F0FF, fieldNN_wordXNN]

theorem mnemonic_decodeArith (h : fieldN w = fieldN v) :
    (decodeArith w).mnemonic = (decodeArith v).mnemonic := by
  unfold decodeArith
  rw [h]
  split <;> rfl

theorem mnemonic_decodeKeySkip (h : fieldNN w = fieldNN v) :
    (decodeKeySkip w).mnemonic = (decodeKeySkip v).mnemonic := by
  unfold decodeKeySkip
  rw [h]
  split <;> rfl

theorem mnemonic_decodeMisc (h : fieldNN w = fieldNN v) :
    (decodeMisc w).mnemonic = (decodeMisc v).mnemonic := by
  unfold decodeMisc
  rw [h]
  split <;> rfl

/-- The bits outside the family's mask are operands: they do not decide the mnemonic. -/
theorem mnemonic_decodeWord_of_and (h : w &&& familyMask (fieldTop v) = v) :
    (decodeWord w).mnemonic = (decodeWord v).mnemonic := by
  have ht : fieldTop w = fieldTop v := by rw [← fieldTop_and_familyMask w (fieldTop v), h]
  unfold decodeWord
  rw [ht]
  split
  case h_1 =>
    next hv =>
    rw [hv] at h
    rw [show w = v from BitVec.and_allOnes.symm.trans h]
  case h_6 | h_10 =>
    next hv =>
    rw [hv] at h
    rw [fieldN_of_and_F00F h]
    split <;> rfl
  case h_9 => next hv => rw [hv] at h; exact mnemonic_decodeArith (fieldN_of_and_F00F h)
  case h_15 => next hv => rw [hv] at h; exact mnemonic_decodeKeySkip (fieldNN_of_and_F0FF h)
  case h_16 =>
    have hv : fieldTop v = 0xF#4 := nibble_eq_F _ (by simp_all)
    rw [hv] at h
    exact mnemonic_decodeMisc (fieldNN_of_and_F0FF h)
  all_goals rfl

/-- Each row's mask is the one of its family, and its match word decodes to its instruction. -/
theorem opcodeTable_match : ∀ r ∈ opcodeTable,
    r.mask = familyMask (fieldTop r.value) ∧ (decodeWord r.value).mnemonic = r.mnemonic := by decide

/-- No two rows have one mnemonic, so a mnemonic names its row. -/
theorem opcodeTable_mnemonics_nodup : (opcodeTable.map OpcodeRow.mnemonic).Nodup := by decide

theorem mnemonic_dw_ne : ∀ r ∈ opcodeTable, (Instr.dw w).mnemonic ≠ r.mnemonic := by
  rw [show (Instr.dw w).mnemonic = "DW_0xhhhh__unrecognized_word__no-op" from rfl]
  decide

/-- A word that a row recognizes decodes to the row's instruction. -/
theorem mnemonic_decodeWord_of_recognizes {r : OpcodeRow} (hr : r ∈ opcodeTable)
    (h : r.recognizes w = true) : (decodeWord w).mnemonic = r.mnemonic := by
  obtain ⟨hmask, hm⟩ := opcodeTable_match r hr
  rw [← hm]
  exact mnemonic_decodeWord_of_and (hmask ▸ beq_iff_eq.1 h)

/-- Every instruction but a data word has a row of the opcode table. -/
theorem hasRow_or_dw : ∀ i : Instr, HasRow i ∨ ∃ word, i = .dw word
  | .cls => .inl Laws.EncodingRow.cls
  | .ret => .inl Laws.EncodingRow.ret
  | .jp nnn => .inl (Laws.EncodingRow.jp nnn)
  | .call nnn => .inl (Laws.EncodingRow.call nnn)
  | .seImm x nn => .inl (Laws.EncodingRow.seImm x nn)
  | .sneImm x nn => .inl (Laws.EncodingRow.sneImm x nn)
  | .seReg x y => .inl (Laws.EncodingRow.seReg x y)
  | .ldImm x nn => .inl (Laws.EncodingRow.ldImm x nn)
  | .addImm x nn => .inl (Laws.EncodingRow.addImm x nn)
  | .ldReg x y => .inl (Laws.EncodingRow.ldReg x y)
  | .orReg x y => .inl (Laws.EncodingRow.orReg x y)
  | .andReg x y => .inl (Laws.EncodingRow.andReg x y)
  | .xorReg x y => .inl (Laws.EncodingRow.xorReg x y)
  | .addReg x y => .inl (Laws.EncodingRow.addReg x y)
  | .sub x y => .inl (Laws.EncodingRow.sub x y)
  | .shr x y => .inl (Laws.EncodingRow.shr x y)
  | .subn x y => .inl (Laws.EncodingRow.subn x y)
  | .shl x y => .inl (Laws.EncodingRow.shl x y)
  | .sneReg x y => .inl (Laws.EncodingRow.sneReg x y)
  | .ldI nnn => .inl (Laws.EncodingRow.ldI nnn)
  | .jpV0 nnn => .inl (Laws.EncodingRow.jpV0 nnn)
  | .rnd x nn => .inl (Laws.EncodingRow.rnd x nn)
  | .drw x y n => .inl (Laws.EncodingRow.drw x y n)
  | .skp x => .inl (Laws.EncodingRow.skp x)
  | .sknp x => .inl (Laws.EncodingRow.sknp x)
  | .ldVxDT x => .inl (Laws.EncodingRow.ldVxDT x)
  | .ldVxK x => .inl (Laws.EncodingRow.ldVxK x)
  | .ldDTVx x => .inl (Laws.EncodingRow.ldDTVx x)
  | .ldSTVx x => .inl (Laws.EncodingRow.ldSTVx x)
  | .addIVx x => .inl (Laws.EncodingRow.addIVx x)
  | .ldFVx x => .inl (Laws.EncodingRow.ldFVx x)
  | .ldBVx x => .inl (Laws.EncodingRow.ldBVx x)
  | .ldMemVx x => .inl (Laws.EncodingRow.ldMemVx x)
  | .ldVxMem x => .inl (Laws.EncodingRow.ldVxMem x)
  | .dw word => .inr ⟨word, rfl⟩

/-- A word decodes to the instruction of a row that recognizes it, or to the data word holding it. -/
theorem decodeWord_row_or_dw (w : Word) :
    (∃ r ∈ opcodeTable, r.mnemonic = (decodeWord w).mnemonic ∧ r.recognizes w = true) ∨
    decodeWord w = .dw w := by
  have he := encode_decodeWord w
  obtain hrow | ⟨word, hdw⟩ := hasRow_or_dw (decodeWord w)
  · rw [HasRow, he] at hrow
    exact .inl hrow
  · rw [hdw] at he
    exact .inr (hdw.trans (congrArg Instr.dw he))

/-- A row recognizes exactly the words that decode to its mnemonic. -/
theorem recognizes_iff {r : OpcodeRow} (hr : r ∈ opcodeTable) :
    r.recognizes w = true ↔ (decodeWord w).mnemonic = r.mnemonic := by
  refine ⟨mnemonic_decodeWord_of_recognizes hr, fun h => ?_⟩
  obtain ⟨r', hr', hm, hrec⟩ | hdw := decodeWord_row_or_dw w
  · rwa [List.inj_on_of_nodup_map opcodeTable_mnemonics_nodup hr hr' (h.symm.trans hm.symm)]
  · exact absurd (hdw ▸ h) (mnemonic_dw_ne r hr)

/-- The words no row recognizes are exactly the data words (30_encoding.md R86). -/
theorem recognized_eq_false_iff : recognized w = false ↔ decodeWord w = .dw w := by
  rw [recognized, List.any_eq_false]
  constructor
  · intro h
    exact (decodeWord_row_or_dw w).resolve_left fun ⟨r, hr, _, hrec⟩ => h r hr hrec
  · intro h r hr hrec
    exact mnemonic_dw_ne r hr (h ▸ mnemonic_decodeWord_of_recognizes hr hrec)

/-- Settles O3: a row decides the mnemonic by the bits of its mask, and conversely the mnemonic names
the one row that recognizes the encoding, which is the word. -/
theorem decoderAgreesWithTheOpcodeTable : Obligations.DecoderAgreesWithTheOpcodeTable :=
  fun _ => ⟨fun _ hr => recognizes_iff hr, recognized_eq_false_iff⟩

theorem wellFormed_decodeWord (w : Word) : (decodeWord w).wellFormed = true := by
  obtain ⟨r, hr, hm, -⟩ | h := decodeWord_row_or_dw w
  · cases hi : decodeWord w
    case dw word => exact absurd (hi ▸ hm.symm) (mnemonic_dw_ne r hr)
    all_goals rfl
  · rw [h, Instr.wellFormed, recognized_eq_false_iff.2 h, Bool.not_false]

/-- Settles O2: the word is rebuilt from its fields, and a data word is one that no row recognizes. -/
theorem encodeOfDecodeGivesTheWord : Obligations.EncodeOfDecodeGivesTheWord :=
  fun w => ⟨encode_decodeWord w, wellFormed_decodeWord w⟩

/-- The decoder reads back the fields the encoder wrote: in the families 0x8, 0xE and 0xF through their
own switch, in the last case by the top nibble alone or with the low nibble 0. A data word comes back
because no row recognizes it. -/
theorem decodeWord_encode {i : Instr} (h : i.wellFormed = true) : decodeWord (encode i) = i := by
  cases i with
  | dw word =>
    rw [Instr.wellFormed, Bool.not_eq_true'] at h
    exact recognized_eq_false_iff.1 h
  | cls | ret => rfl
  | skp | sknp => simp [encode, decodeWord, decodeKeySkip]
  | ldVxDT | ldVxK | ldDTVx | ldSTVx | addIVx | ldFVx | ldBVx | ldMemVx | ldVxMem =>
    simp [encode, decodeWord, decodeMisc]
  | ldReg | orReg | andReg | xorReg | addReg | sub | shr | subn | shl =>
    simp [encode, decodeWord, decodeArith]
  | _ => simp [encode, decodeWord]

/-- Settles O1: the two bytes join to the encoded word, which decodes to the instruction. -/
theorem decodeOfEncodeGivesTheInstruction : Obligations.DecodeOfEncodeGivesTheInstruction := by
  intro i rest h
  rw [encodeBytes, decodeBytes_wordBytes, decodeWord_encode h]

/-- Settles O4, by evaluating the decoder on the nine words. -/
theorem handWrittenWordsDecode : Obligations.HandWrittenWordsDecode := by
  unfold Obligations.HandWrittenWordsDecode
  decide

/-- Settles O12: a word no row recognizes decodes to a data word, whose execution is no change. -/
theorem unrecognizedWordOnlyAdvancesPc : Obligations.UnrecognizedWordOnlyAdvancesPc := by
  refine ⟨fun s hs hp hw => ?step, fun _ _ => rfl⟩
  case step =>
    rw [Machine.State.wordAtPc, recognized_eq_false_iff] at hw
    rw [Machine.step_running hs hp, hw]
    rfl

end Sys2Proof

end

/-! ## Control transfer (40_control_flow.md) -/

section

namespace Sys2Proof.Machine

variable {s : State} {n : Nat}

/-! ### Jumps -/

theorem toNat_extendAddr (nnn : Addr12) : (extendAddr nnn).toNat = nnn.toNat :=
  BitVec.toNat_setWidth_of_le (by decide)

theorem toNat_extendByte (b : Byte) : (extendByte b).toNat = b.toNat :=
  BitVec.toNat_setWidth_of_le (by decide)

/-- The sum of a 12-bit and an 8-bit value never wraps at 16 bits (40_control_flow.md R124). -/
theorem State.toNat_offsetTarget (s : State) (nnn : Addr12) :
    (s.offsetTarget nnn).toNat = nnn.toNat + (s.getV 0).toNat := by
  have hn : nnn.toNat < 4096 := nnn.isLt
  have hv : (s.getV 0).toNat < 256 := (s.getV 0).isLt
  rw [State.offsetTarget, BitVec.toNat_add, toNat_extendAddr, toNat_extendByte]
  omega

/-- Settles O37: both jumps are one write of `pc`, and neither target wraps. -/
theorem jumpsSetOnlyPc : Obligations.JumpsSetOnlyPc :=
  fun s nnn => ⟨⟨_, rfl, toNat_extendAddr nnn, sameExcept_setPc s _⟩,
    ⟨_, rfl, s.toNat_offsetTarget nnn, sameExcept_setPc s _⟩⟩

/-! ### Skips -/

theorem State.skipIf_toNat_pc (s : State) (c : Bool) :
    (s.skipIf c).pc.toNat = if c then (s.pc.toNat + 2) % 0x10000 else s.pc.toNat := by
  cases c <;> rfl

/-- A skip on a condition `c`, with the condition as a proposition. -/
theorem State.skipIf_spec (s : State) {c : Bool} {p : Prop} [Decidable p] (h : c = true ↔ p) :
    SameExcept [.pc] s (s.skipIf c) ∧
      (s.skipIf c).pc.toNat = if p then (s.pc.toNat + 2) % 0x10000 else s.pc.toNat := by
  refine ⟨sameExcept_skipIf s c, ?_⟩
  rw [s.skipIf_toNat_pc]
  exact if_congr h rfl rfl

/-- A skip on equal bytes. -/
theorem State.skipIf_beq_spec (s : State) (a b : Byte) :
    SameExcept [.pc] s (s.skipIf (a == b)) ∧ (s.skipIf (a == b)).pc.toNat =
      if a = b then (s.pc.toNat + 2) % 0x10000 else s.pc.toNat :=
  s.skipIf_spec beq_iff_eq

/-- A skip on different bytes. -/
theorem State.skipIf_bne_spec (s : State) (a b : Byte) :
    SameExcept [.pc] s (s.skipIf (a != b)) ∧ (s.skipIf (a != b)).pc.toNat =
      if a = b then s.pc.toNat else (s.pc.toNat + 2) % 0x10000 := by
  rw [← ite_not]
  exact s.skipIf_spec bne_iff_ne

/-- Settles O41: the words are the encodings of the two skips, and each skip compares `Vx` with `nn`. -/
theorem immediateSkips : Obligations.ImmediateSkips :=
  fun s x nn => ⟨decodeWord_encode (i := .seImm x nn) rfl, decodeWord_encode (i := .sneImm x nn) rfl,
    ⟨_, rfl, s.skipIf_beq_spec (s.getV x) nn⟩, ⟨_, rfl, s.skipIf_bne_spec (s.getV x) nn⟩⟩

/-- Settles O42: each skip compares `Vx` with `Vy`. -/
theorem registerSkips : Obligations.RegisterSkips :=
  fun s x y => ⟨⟨_, rfl, s.skipIf_beq_spec (s.getV x) (s.getV y)⟩,
    ⟨_, rfl, s.skipIf_bne_spec (s.getV x) (s.getV y)⟩⟩

/-! ### Calls and returns -/

/-- A call with room on the stack is a push of `pc` and a jump. -/
theorem exec_call_ok (nnn : Addr12) (h : s.sp.val < 16) :
    exec (.call nnn) s = .next (({ s with
      stack := s.stack.set s.sp.val s.pc h
      sp := ⟨s.sp.val + 1, Nat.succ_lt_succ h⟩ } : State).setPc (extendAddr nnn)) := by
  rw [exec, execCall, State.pushPc_ok h, orRaise_ok]

theorem exec_call_stackOverflow (nnn : Addr12) (h : s.sp.val = 16) :
    exec (.call nnn) s = .fault (.stackOverflow (s.pc - 2)) := by
  rw [exec, execCall, State.pushPc_error h, orRaise_error, State.faultPc]

/-- A return with an entry on the stack is a pop of the newest, `n`, and a jump to it. -/
theorem exec_ret_ok (hn : n < 16) (h : s.sp.val = n + 1) :
    exec .ret s = .next (({ s with
      stack := s.stack.set n (Config.poppedEntry s.pops) hn
      sp := ⟨n, Nat.lt_succ_of_lt hn⟩
      pops := s.pops + 1 } : State).setPc s.stack[n]) := by
  rw [exec, execRet, State.popPc_ok hn h, orRaise_ok]

theorem exec_ret_stackUnderflow (h : s.sp.val = 0) :
    exec .ret s = .fault (.stackUnderflow (s.pc - 2)) := by
  rw [exec, execRet, State.popPc_error h, orRaise_error, State.faultPc]

/-- Settles O38: the push writes the one entry `sp`, and the frame is the call's list of parts. -/
theorem callPushesReturnAddress : Obligations.CallPushesReturnAddress := by
  refine fun s nnn => ⟨fun h => ?room, exec_call_stackOverflow nnn⟩
  case room =>
    have he := exec_call_ok nnn h
    exact ⟨_, he, Vector.getElem_set_self h, rfl, toNat_extendAddr nnn,
      fun k hk hne => Vector.getElem_set_ne h hk hne.symm, exec_sameExcept he⟩

/-- Settles O39: the pop writes the one entry it vacates, and the frame is the return's list of
parts. -/
theorem returnPopsIntoPc : Obligations.ReturnPopsIntoPc := by
  refine fun s => ⟨fun n hn h => ?entry, exec_ret_stackUnderflow⟩
  case entry =>
    have he := exec_ret_ok hn h
    exact ⟨_, he, rfl, rfl, fun k hk hne => Vector.getElem_set_ne hn hk hne.symm, exec_sameExcept he⟩

/-- Settles O40: the call pushes at `sp` (O38), so the return finds that entry newest and pops it (O39);
the entries below it are written by neither. -/
theorem returnUndoesCall : Obligations.ReturnUndoesCall := by
  intro s nnn h
  obtain ⟨t, hcall, hpushed, hsp, -, hothers, -⟩ := (callPushesReturnAddress s nnn).1 h
  refine ⟨t, hcall, fun body hstack hbsp => ?_⟩
  have hbody : body.sp.val = s.sp.val + 1 := by rw [hbsp, hsp]
  obtain ⟨u, hret, hpc, husp, hkept, -⟩ := (returnPopsIntoPc body).1 s.sp.val h hbody
  simp only [hstack] at hpc hkept
  refine ⟨u, hret, hpc.trans hpushed, Fin.ext husp, fun k hk hlt => ?_⟩
  exact (hkept k hk hlt.ne).trans (hothers k hk hlt.ne)

end Sys2Proof.Machine

end

/-! ## Register arithmetic (41_alu.md) -/

section

namespace Sys2Proof.Machine

/-! ### The two writes: `Vx` alone, and `Vx` then VF (41_alu.md R140) -/

theorem State.getV_setV_same (s : State) (x : RegIx) (b : Byte) : (s.setV x b).getV x = b := by
  rw [State.getV_setV, if_pos rfl]

theorem State.setV_frame (s : State) (x : RegIx) (b : Byte) :
    SameRegsExcept [x] s (s.setV x b) ∧ SameExcept [.regs] s (s.setV x b) :=
  ⟨sameRegsExcept_setV s x b, sameExcept_setV s x b⟩

/-- The flag is written last, so VF holds it for every destination, VF included (decision D2). -/
theorem State.getV_VF_setResultFlag (s : State) (x : RegIx) (b : Byte) (c : Bool) :
    (s.setResultFlag x b c).getV VF = flagByte c :=
  State.getV_setV_same _ VF _

theorem State.getV_setResultFlag_same {x : RegIx} (s : State) (b : Byte) (c : Bool) (h : x ≠ VF) :
    (s.setResultFlag x b c).getV x = b := by
  rw [State.setResultFlag_eq, State.getV_setV_ne _ h, State.getV_setV_same]

theorem State.setResultFlag_frame (s : State) (x : RegIx) (b : Byte) (c : Bool) :
    SameRegsExcept [x, VF] s (s.setResultFlag x b c) ∧ SameExcept [.regs] s (s.setResultFlag x b c) :=
  ⟨sameRegsExcept_setResultFlag s x b c, sameExcept_setResultFlag s x b c⟩

/-! ### Results and flags as numbers -/

theorem toNat_flagByte (c : Bool) : (flagByte c).toNat = c.toNat := by
  cases c <;> rfl

theorem flagByte_decide (p : Prop) [Decidable p] : flagByte (decide p) = if p then 1#8 else 0#8 :=
  if_congr decide_eq_true_iff rfl rfl

/-- Subtraction of bytes is that of the integers modulo 256, a borrow or not. -/
theorem toNat_byte_sub (a b : Byte) : ((a - b).toNat : Int) = ((a.toNat : Int) - b.toNat) % 256 := by
  have hb : b.toNat < 256 := b.isLt
  rw [BitVec.toNat_sub]
  omega

theorem toNat_shiftedOutRight (b : Byte) : (shiftedOutRight b).toNat = b.toNat % 2 := by
  rw [shiftedOutRight, ← BitVec.testBit_toNat, Nat.toNat_testBit, pow_zero, Nat.div_one]

theorem toNat_shiftedOutLeft (b : Byte) : (shiftedOutLeft b).toNat = b.toNat / 128 := by
  have hb : b.toNat < 256 := b.isLt
  rw [shiftedOutLeft, ← BitVec.testBit_toNat, Nat.toNat_testBit]
  omega

theorem toNat_byte_shiftRight_one (b : Byte) : (b >>> 1).toNat = b.toNat / 2 := by
  rw [BitVec.toNat_ushiftRight, Nat.shiftRight_one]

theorem toNat_byte_shiftLeft_one (b : Byte) : (b <<< 1).toNat = b.toNat * 2 % 256 := by
  rw [BitVec.toNat_shiftLeft, Nat.shiftLeft_eq]

/-! ### The instructions that write VF -/

/-- Settles O25: the carry is the comparison of the exact sum with 255, and the result the sum of
bytes. -/
theorem addRegisterSetsCarry : Obligations.AddRegisterSetsCarry := by
  refine fun s x y => ⟨_, rfl, ?flag, fun hx => ?result, s.setResultFlag_frame x _ _⟩
  case flag => rw [State.getV_VF_setResultFlag, carryOut, flagByte_decide]
  case result => rw [State.getV_setResultFlag_same _ _ _ hx, BitVec.toNat_add]

/-- What a difference written with its not-borrow leaves, for either order of the operands. -/
theorem State.setResultFlag_sub (s : State) (x : RegIx) (a b : Byte) :
    let t := s.setResultFlag x (a - b) (noBorrow a b)
    t.getV VF = (if a.toNat ≥ b.toNat then 1#8 else 0#8) ∧
      (x ≠ VF → ((t.getV x).toNat : Int) = ((a.toNat : Int) - b.toNat) % 256) ∧
      SameRegsExcept [x, VF] s t ∧ SameExcept [.regs] s t := by
  refine ⟨?flag, fun hx => ?result, s.setResultFlag_frame x _ _⟩
  case flag => rw [State.getV_VF_setResultFlag, noBorrow, flagByte_decide]
  case result => rw [State.getV_setResultFlag_same _ _ _ hx, toNat_byte_sub]

/-- Settles O26: the difference `Vx - Vy`, written with its not-borrow. -/
theorem subtractSetsNotBorrow : Obligations.SubtractSetsNotBorrow :=
  fun s x y => ⟨_, rfl, s.setResultFlag_sub x (s.getV x) (s.getV y)⟩

/-- Settles O27: the difference `Vy - Vx`, written with its not-borrow. -/
theorem reverseSubtractSetsNotBorrow : Obligations.ReverseSubtractSetsNotBorrow :=
  fun s x y => ⟨_, rfl, s.setResultFlag_sub x (s.getV y) (s.getV x)⟩

/-- Settles O28: bit 0 is the remainder that the halving drops, and bit 7 the carry of the doubling. -/
theorem shiftsMoveVyIntoVx : Obligations.ShiftsMoveVyIntoVx := by
  refine fun s x y =>
    ⟨⟨_, rfl, ?bit0, fun hx => ?half, s.setResultFlag_frame x _ _⟩,
      ⟨_, rfl, ?bit7, fun hx => ?double, s.setResultFlag_frame x _ _⟩⟩
  case bit0 => rw [State.getV_VF_setResultFlag, toNat_flagByte, toNat_shiftedOutRight]
  case half => rw [State.getV_setResultFlag_same _ _ _ hx, toNat_byte_shiftRight_one]
  case bit7 => rw [State.getV_VF_setResultFlag, toNat_flagByte, toNat_shiftedOutLeft]
  case double => rw [State.getV_setResultFlag_same _ _ _ hx, toNat_byte_shiftLeft_one]

/-! ### The instructions that write `Vx` alone -/

/-- Settles O22: the words are the encodings of the two loads, and each load is one write of `Vx`. -/
theorem loadsWriteOnlyVx : Obligations.LoadsWriteOnlyVx :=
  ⟨fun s x nn => ⟨decodeWord_encode (i := .ldImm x nn) rfl,
      _, rfl, s.getV_setV_same x nn, s.setV_frame x nn⟩,
    fun s x y => ⟨decodeWord_encode (i := .ldReg x y) rfl,
      _, rfl, s.getV_setV_same x _, s.setV_frame x _⟩⟩

/-- Settles O23: the one write is the sum of bytes to `Vx`, so VF is kept like any other register. -/
theorem addImmediateWrapsWithoutFlag : Obligations.AddImmediateWrapsWithoutFlag := by
  refine fun s x nn => ⟨decodeWord_encode (i := .addImm x nn) rfl, _, rfl, ?sum, s.setV_frame x _⟩
  case sum => rw [State.getV_setV_same, BitVec.toNat_add]

/-- Settles O24: the one write is the bitwise operation on the two registers. -/
theorem logicActsBitwiseOnVxOnly : Obligations.LogicActsBitwiseOnVxOnly := by
  refine fun s x y =>
    ⟨⟨_, rfl, fun j => ?or, s.setV_frame x _⟩, ⟨_, rfl, fun j => ?and, s.setV_frame x _⟩,
      ⟨_, rfl, fun j => ?xor, s.setV_frame x _⟩⟩
  case or => rw [State.getV_setV_same, BitVec.getLsbD_or]
  case and => rw [State.getV_setV_same, BitVec.getLsbD_and]
  case xor => rw [State.getV_setV_same, BitVec.getLsbD_xor]

/-- A draw masked by `nn` has the draw's bits under `nn`, and no others. -/
theorem State.afterRnd_masked (s : State) (x : RegIx) (nn r : Byte) :
    (s.afterRnd x nn r).getV x &&& nn = r &&& nn ∧ (s.afterRnd x nn r).getV x &&& ~~~nn = 0#8 := by
  rw [State.afterRnd_eq, State.getV_setV_same, BitVec.and_assoc, BitVec.and_self, BitVec.and_assoc,
    BitVec.and_not_self]
  exact ⟨rfl, BitVec.and_zero⟩

/-- Settles O29: the step is one write of `Vx` and one advance of the draw counter, which no register
read sees. -/
theorem randomWritesOneMaskedDraw : Obligations.RandomWritesOneMaskedDraw :=
  ⟨fun s x nn => ⟨_, rfl, s.getV_setV_same x _, rfl, sameRegsExcept_setV s x _,
      exec_sameExcept (i := .rnd x nn) rfl⟩,
    State.afterRnd_masked⟩

end Sys2Proof.Machine

end

/-! ## Address register and memory blocks (42_index_memory.md) -/

section

namespace Sys2Proof.Machine

variable {s t : State} {x : RegIx} {a : Nat} {bs : List Byte}

/-! ### Loads of the address register -/

/-- `Vx * 5` is at most 1275, so the glyph address never wraps at 16 bits (42_index_memory.md R174). -/
theorem toNat_glyphAddr (v : Byte) : (glyphAddr v).toNat = v.toNat * 5 := by
  have hv : v.toNat < 256 := v.isLt
  rw [glyphAddr, BitVec.toNat_ofNat]
  omega

/-- Settles O30: the words are the encodings of the two loads, and each load is one write of `I`. -/
theorem addressLoadsSetOnlyI : Obligations.AddressLoadsSetOnlyI :=
  ⟨fun s nnn => ⟨decodeWord_encode (i := .ldI nnn) rfl,
      _, rfl, toNat_extendAddr nnn, sameExcept_setI s _⟩,
    fun s x => ⟨decodeWord_encode (i := .ldFVx x) rfl,
      _, rfl, toNat_glyphAddr (s.getV x), sameExcept_setI s _⟩⟩

/-- Settles O31: the one write is the sum of words to `I`, so VF is kept like every register. -/
theorem addToAddressWrapsWithoutFlag : Obligations.AddToAddressWrapsWithoutFlag := by
  refine fun s x => ⟨_, rfl, ?sum, sameExcept_setI s _⟩
  case sum => rw [State.setI_I, BitVec.toNat_add, toNat_extendByte]

/-! ### Blocks that pass 0xFFF (decision D5) -/

theorem orRaise_writeBlock_memoryBounds (k : State → Outcome) (h : 0 < bs.length)
    (ha : a + (bs.length - 1) > 0xFFF) : orRaise (s.writeBlock a bs) k =
      .fault (.memoryBounds (s.pc - 2) (firstOutOfRange a)) := by
  rw [State.writeBlock_error h ha, orRaise_error, State.faultPc]

theorem exec_ldBVx_memoryBounds (h : s.blockAddr + 2 > 0xFFF) : exec (.ldBVx x) s =
    .fault (.memoryBounds (s.pc - 2) (firstOutOfRange s.blockAddr)) :=
  orRaise_writeBlock_memoryBounds _ (Nat.succ_pos 2) h

theorem exec_ldMemVx_memoryBounds (h : s.blockAddr + x.val > 0xFFF) : exec (.ldMemVx x) s =
    .fault (.memoryBounds (s.pc - 2) (firstOutOfRange s.blockAddr)) :=
  have hlen : (s.blockRegs x).length = x.val + 1 := State.length_blockRegs
  orRaise_writeBlock_memoryBounds _ (by omega) (by omega)

theorem exec_ldVxMem_memoryBounds (h : s.blockAddr + x.val > 0xFFF) : exec (.ldVxMem x) s =
    .fault (.memoryBounds (s.pc - 2) (firstOutOfRange s.blockAddr)) := by
  rw [exec, execLdVxMem, blockCount, State.readBlock_error (Nat.succ_pos x.val) h, orRaise_error,
    State.faultPc]

/-! ### Blocks in range -/

/-- A block in range ends at most at 0x1000, so the advance of `I` past it does not wrap. -/
theorem State.toNat_afterBlock (h : s.blockAddr + x.val ≤ 0xFFF) :
    (s.afterBlock x).toNat = s.I.toNat + x.val + 1 := by
  rw [State.blockAddr] at h
  rw [State.afterBlock, blockCount, BitVec.toNat_add, BitVec.toNat_ofNat]
  omega

theorem exec_ldMemVx_I (h : exec (.ldMemVx x) s = .next t) : t.I = s.afterBlock x := by
  obtain ⟨u, -, ht⟩ := orRaise_eq_next h
  cases ht
  exact State.setI_I u _

/-- A load in range is a fill of the first registers and a write of `I`. -/
theorem exec_ldVxMem_ok (h : s.blockAddr + x.val ≤ 0xFFF) : exec (.ldVxMem x) s =
    .next ((s.fillV ((List.range (x.val + 1)).map fun k => s.mem.read (s.blockAddr + k))).setI
      (s.afterBlock x)) := by
  rw [exec, execLdVxMem, blockCount, State.readBlock_ok (.inr h), orRaise_ok]

/-- Register `k` after the first `n` took the bytes from `a` on. -/
theorem State.getV_fillV_read (s : State) (a n : Nat) (k : RegIx) :
    (s.fillV ((List.range n).map fun j => s.mem.read (a + j))).getV k =
      if k.val < n then s.mem.read (a + k.val) else s.getV k := by
  simp [State.getV_fillV]

/-- A digit of `Vx` that `Fx33` stored, as a number. -/
theorem exec_ldBVx_digit (h : exec (.ldBVx x) s = .next t) (k : Nat) {d : Nat}
    (hk : (bcdDigits (s.getV x))[k]? = some (BitVec.ofNat 8 d)) (hd : d < 256) :
    (t.mem.read (s.blockAddr + k)).toNat = d := by
  obtain ⟨hlt, hb⟩ := List.getElem?_eq_some_iff.1 hk
  have hread : t.mem.read (s.blockAddr + k) = (bcdDigits (s.getV x))[k] := exec_read_stored h hlt
  rw [hread, hb, BitVec.toNat_ofNat, Nat.mod_eq_of_lt hd]

/-- Settles O32: the stored bytes are the three digits, each below 256, and the frame is the store's
list of parts. -/
theorem bcdStoresThreeDigitsAtI : Obligations.BcdStoresThreeDigitsAtI := by
  refine fun s x => ⟨fun hr => ?digits, exec_ldBVx_memoryBounds⟩
  case digits =>
    obtain ⟨t, ht⟩ := exec_ldBVx_completes (x := x) hr
    have hv : (s.getV x).toNat < 256 := (s.getV x).isLt
    exact ⟨t, ht, exec_ldBVx_digit ht 0 rfl (by omega), exec_ldBVx_digit ht 1 rfl (by omega),
      exec_ldBVx_digit ht 2 rfl (by omega), fun _ ha => exec_read_outside ht ha, exec_sameExcept ht⟩

/-- Settles O33: the stored bytes are the registers up to `Vx`, and the frame is the store's list of
parts. -/
theorem storeBlockCopiesRegistersToMemory : Obligations.StoreBlockCopiesRegistersToMemory := by
  refine fun s x => ⟨fun hr => ?stored, exec_ldMemVx_memoryBounds⟩
  case stored =>
    obtain ⟨t, ht⟩ := exec_ldMemVx_completes hr
    have hlen : (storedBytes (.ldMemVx x) s).length = x.val + 1 := State.length_blockRegs
    refine ⟨t, ht, fun k hk => ?bytes, ?advance, fun a ha => ?outside, exec_sameExcept ht⟩
    case bytes =>
      have hk : k.val < (storedBytes (.ldMemVx x) s).length := hlen ▸ Nat.lt_succ_of_le hk
      exact (exec_read_stored ht hk).trans (State.getElem_blockRegs k.val hk)
    case advance => rw [exec_ldMemVx_I ht, State.toNat_afterBlock hr]
    case outside => exact exec_read_outside ht (hlen ▸ ha)

/-- Settles O34: the `x + 1` bytes fill exactly the registers up to `Vx`, and the frame is the load's
list of parts. -/
theorem loadBlockCopiesMemoryToRegisters : Obligations.LoadBlockCopiesMemoryToRegisters := by
  refine fun s x => ⟨fun hr => ?loaded, exec_ldVxMem_memoryBounds⟩
  case loaded =>
    have he := exec_ldVxMem_ok hr
    refine ⟨_, he, fun k hk => ?upTo, fun k hk => ?above, State.toNat_afterBlock hr,
      exec_sameExcept he⟩
    case upTo => rw [State.getV_setI, State.getV_fillV_read, if_pos (Nat.lt_succ_of_le hk)]
    case above => exact exec_getV_of_not_mayWrite he (not_le_of_gt hk)

/-- Settles O35: the store leaves `Vk` at `I + k` (O33), and the load from the same address, with the
same memory, takes it back from there (O34). -/
theorem storeThenLoadBlockRoundTrip : Obligations.StoreThenLoadBlockRoundTrip := by
  intro s x between hr
  obtain ⟨t, hstore, hstored, htI, -⟩ := (storeBlockCopiesRegistersToMemory s x).1 hr
  obtain ⟨u, hload, hloaded, -, huI, -⟩ :=
    (loadBlockCopiesMemoryToRegisters { t with V := between, I := s.I } x).1 hr
  exact ⟨t, u, hstore, hload, fun k hk => (hloaded k hk).trans (hstored k hk), htI, huI⟩

end Sys2Proof.Machine

end

/-! ## Display (43_display.md) -/

section

namespace Sys2Proof.Machine

variable {s t : State} {x y : RegIx} {n : RowCount} {c : Fin 64} {r : Fin 32}
  {T U : Fin 64 → Fin 32 → Prop} {p q q' : Framebuffer} {d e f : Drawn}

/-! ### Framebuffers that differ in a set of pixels -/

/-- `q` is `p` with exactly the pixels in `T` flipped. -/
structure Framebuffer.Flips (T : Fin 64 → Fin 32 → Prop) (p q : Framebuffer) : Prop where
  flipped : ∀ c r, T c r → q.get c r = !p.get c r
  kept : ∀ c r, ¬ T c r → q.get c r = p.get c r

/-- Disjoint sets of pixels flipped one after the other are their union flipped. -/
theorem Framebuffer.Flips.union (h : Flips T p q) (h' : Flips U q q')
    (hTU : ∀ c r, T c r → ¬ U c r) : Flips (fun c r => T c r ∨ U c r) p q' where
  flipped c r := by
    rintro (hT | hU)
    · rw [h'.kept c r (hTU c r hT), h.flipped c r hT]
    · rw [h'.flipped c r hU, h.kept c r fun hT => hTU c r hT hU]
  kept c r hn := by
    obtain ⟨hT, hU⟩ := not_or.1 hn
    rw [h'.kept c r hU, h.kept c r hT]

/-- The same pixels flipped twice are as they were. -/
theorem Framebuffer.Flips.get_twice (h : Flips T p q) (h' : Flips T q q') (c : Fin 64)
    (r : Fin 32) : q'.get c r = p.get c r := by
  by_cases hT : T c r
  · rw [h'.flipped c r hT, h.flipped c r hT, Bool.not_not]
  · rw [h'.kept c r hT, h.kept c r hT]

/-- A flipped pixel is on afterwards exactly where a flip turned an off pixel on. -/
theorem Framebuffer.Flips.target_on_iff (h : Flips T p q) (c : Fin 64) (r : Fin 32) :
    T c r ∧ q.get c r = true ↔ p.get c r = false ∧ q.get c r = true := by
  refine and_congr_left fun hq => ?_
  by_cases hT : T c r
  · rw [h.flipped c r hT, Bool.not_eq_true'] at hq
    exact iff_of_true hT hq
  · rw [h.kept c r hT] at hq
    exact iff_of_false hT (by rw [hq]; exact Bool.noConfusion)

/-! ### A draw flips a set of pixels and notes those that were on (43_display.md R202, R203) -/

/-- From `d` to `e` the pixels in `T` were drawn: flipped, with a collision noted exactly when one
of them was on. -/
structure Drawn.Draws (T : Fin 64 → Fin 32 → Prop) (d e : Drawn) : Prop where
  flips : Framebuffer.Flips T d.pix e.pix
  collided : e.collided = true ↔ d.collided = true ∨ ∃ c r, T c r ∧ d.pix.get c r = true

/-- With no collision noted before, one is noted afterwards exactly when a pixel in `T` was on. -/
theorem Drawn.Draws.collided_iff (h : Draws T d e) (hd : d.collided = false) :
    e.collided = true ↔ ∃ c r, T c r ∧ d.pix.get c r = true := by
  rw [h.collided, hd]
  exact or_iff_right Bool.false_ne_true

theorem Drawn.Draws.congr (h : Draws T d e) (hTU : ∀ c r, T c r ↔ U c r) : Draws U d e := by
  obtain rfl : T = U := funext₂ fun c r => propext (hTU c r)
  exact h

/-- Drawing two disjoint sets of pixels draws their union: the first leaves those of the second. -/
theorem Drawn.Draws.union (h : Draws T d e) (h' : Draws U e f) (hTU : ∀ c r, T c r → ¬ U c r) :
    Draws (fun c r => T c r ∨ U c r) d f where
  flips := h.flips.union h'.flips hTU
  collided := by
    have hU : ∀ c r, U c r ∧ e.pix.get c r = true ↔ U c r ∧ d.pix.get c r = true :=
      fun c r => and_congr_right fun hU => by rw [h.flips.kept c r fun hT => hTU c r hT hU]
    simp only [h'.collided, h.collided, hU, or_and_right, exists_or, or_assoc]

/-- Some 1 bit of the byte `b`, drawn as the pixel row `r₀`, targets the pixel `(c, r)`. -/
abbrev rowTargets (x0 : Byte) (r₀ : Fin 32) (b : Byte) (c : Fin 64) (r : Fin 32) : Prop :=
  r = r₀ ∧ ∃ col ∈ spriteColumns, b.getLsbD (7 - col) = true ∧ wrapColumn x0 col = c

theorem drawRow_draws (x0 : Byte) (r₀ : Fin 32) (b : Byte) (d : Drawn) :
    d.Draws (rowTargets x0 r₀ b) (drawRow x0 r₀ b d) where
  flips := by
    refine ⟨fun c r hT => ?flipped, fun c r hT => ?kept⟩
    case flipped => rw [(drawRow_spec x0 b r₀ d c r).1, decide_eq_true hT, Bool.xor_true]
    case kept => rw [(drawRow_spec x0 b r₀ d c r).1, decide_eq_false hT, Bool.xor_false]
  collided := by
    rw [(drawRow_spec x0 b r₀ d 0 0).2]
    refine or_congr_right ⟨?_, ?_⟩
    · rintro ⟨col, hcol, hb, hp⟩
      exact ⟨_, _, ⟨rfl, col, hcol, hb, rfl⟩, hp⟩
    · rintro ⟨_, _, ⟨rfl, col, hcol, hb, rfl⟩, hp⟩
      exact ⟨col, hcol, hb, hp⟩

/-- Some 1 bit of the sprite rows `bs`, the first of them row `row`, targets the pixel `(c, r)`. -/
def rowsTarget (x0 y0 : Byte) (row : Nat) (bs : List Byte) (c : Fin 64) (r : Fin 32) : Prop :=
  ∃ (k : Nat) (h : k < bs.length), rowTargets x0 (wrapRow y0 (row + k)) bs[k] c r

theorem rowsTarget_cons (x0 y0 : Byte) (row : Nat) (b : Byte) (bs : List Byte) (c : Fin 64)
    (r : Fin 32) : rowTargets x0 (wrapRow y0 row) b c r ∨ rowsTarget x0 y0 (row + 1) bs c r ↔
      rowsTarget x0 y0 row (b :: bs) c r := by
  constructor
  · rintro (hT | ⟨k, hk, hT⟩)
    · exact ⟨0, Nat.succ_pos _, hT⟩
    · exact ⟨k + 1, Nat.succ_lt_succ hk, by rwa [← Nat.add_assoc, Nat.add_right_comm]⟩
  · rintro ⟨_ | k, hk, hT⟩
    · exact .inl hT
    · exact .inr ⟨k, Nat.lt_of_succ_lt_succ hk, by rwa [Nat.add_right_comm, Nat.add_assoc]⟩

theorem rowsTarget_zero_iff (x0 y0 : Byte) (sprite : List Byte) (c : Fin 64) (r : Fin 32) :
    rowsTarget x0 y0 0 sprite c r ↔ spriteTargets x0 y0 sprite c r := by
  simp only [rowsTarget, rowTargets, spriteTargets, mem_spriteColumns, wrapColumn, wrapRow,
    Fin.ext_iff, Fin.val_ofNat, Nat.zero_add]
  constructor
  · rintro ⟨row, hrow, hr, col, hcol, hb, hc⟩
    exact ⟨row, col, hrow, hcol, hb, hc, hr.symm⟩
  · rintro ⟨row, col, hrow, hcol, hb, hc, hr⟩
    exact ⟨row, hrow, hr.symm, col, hcol, hb, hc⟩

/-- A row of a sprite of at most 15 rows and the rows below it target different pixel rows. -/
theorem rowTargets_disjoint {x0 y0 b : Byte} {row : Nat} {bs : List Byte}
    (hlen : row + (bs.length + 1) ≤ 15) (h : rowTargets x0 (wrapRow y0 row) b c r) :
    ¬ rowsTarget x0 y0 (row + 1) bs c r := by
  rintro ⟨k, hk, hr, -⟩
  have : row = row + 1 + k := wrapRow_inj (by omega) (by omega) (h.1.symm.trans hr)
  omega

theorem drawRows_draws (x0 y0 : Byte) (row : Nat) (bs : List Byte) (d : Drawn)
    (hlen : row + bs.length ≤ 15) :
    d.Draws (rowsTarget x0 y0 row bs) (drawRows x0 y0 row bs d) := by
  induction bs generalizing row d with
  | nil =>
    have hno : ∀ c r, ¬ rowsTarget x0 y0 row [] c r := fun _ _ ⟨_, hk, _⟩ => Nat.not_lt_zero _ hk
    exact ⟨⟨fun c r h => absurd h (hno c r), fun _ _ _ => rfl⟩, by simp [drawRows, hno]⟩
  | cons b bs ih =>
    rw [List.length_cons] at hlen
    have hrest := ih (row + 1) (drawRow x0 (wrapRow y0 row) b d) (by omega)
    exact ((drawRow_draws x0 (wrapRow y0 row) b d).union hrest
      fun _ _ => rowTargets_disjoint hlen).congr (rowsTarget_cons x0 y0 row b bs)

/-- A sprite of at most 15 rows draws the pixels its 1 bits target. -/
theorem draw_draws (x0 y0 : Byte) {sprite : List Byte} (p : Framebuffer)
    (hlen : sprite.length ≤ 15) :
    Drawn.Draws (spriteTargets x0 y0 sprite) ⟨p, false⟩ (draw x0 y0 sprite p) :=
  (drawRows_draws x0 y0 0 sprite ⟨p, false⟩ (by omega)).congr (rowsTarget_zero_iff x0 y0 sprite)

/-- Settles O44: each row draws the pixels its 1 bits target, and no two rows target the same pixel,
so the rows together draw the union. -/
theorem drawFlipsExactlyTheTargetedPixels : Obligations.DrawFlipsExactlyTheTargetedPixels := by
  intro x0 y0 sprite p hlen
  have h := draw_draws x0 y0 p hlen
  exact ⟨h.flips.flipped, h.flips.kept, h.collided_iff rfl⟩

/-! ### `Dxyn` (43_display.md R210, R212) -/

/-- The pixels `Dxyn` targets from a state. -/
abbrev State.drwTargets (s : State) (x y : RegIx) (n : RowCount) : Fin 64 → Fin 32 → Prop :=
  spriteTargets (s.getV x) (s.getV y) (s.spriteBytes n.val)

/-- The draw of `Dxyn`, with the coordinates, the sprite and the pixels as they are in the state. -/
def State.drwDraw (s : State) (x y : RegIx) (n : RowCount) : Drawn :=
  draw (s.getV x) (s.getV y) (s.spriteBytes n.val) s.pix

theorem State.length_spriteBytes (s : State) (n : Nat) : (s.spriteBytes n).length = n := by
  rw [State.spriteBytes, List.length_map, List.length_range]

theorem State.drwDraw_draws (s : State) (x y : RegIx) (n : RowCount) :
    Drawn.Draws (s.drwTargets x y n) ⟨s.pix, false⟩ (s.drwDraw x y n) :=
  draw_draws _ _ s.pix (by rw [State.length_spriteBytes]; omega)

theorem exec_drw_ok (h : n.val = 0 ∨ s.I.toNat + (n.val - 1) ≤ 0xFFF) :
    exec (.drw x y n) s = .next (s.afterDraw (s.drwDraw x y n)) := by
  rw [exec, execDrw, State.blockAddr, State.readBlock_ok h, orRaise_ok, State.drwDraw,
    State.spriteBytes]

theorem exec_drw_memoryBounds (h : 0 < n.val) (h' : s.I.toNat + (n.val - 1) > 0xFFF) :
    exec (.drw x y n) s = .fault (.memoryBounds (s.pc - 2) (firstOutOfRange s.I.toNat)) := by
  rw [exec, execDrw, State.blockAddr, State.readBlock_error h h', orRaise_error, State.faultPc]

/-- A `Dxyn` that completes had its sprite in memory, and is one draw and one write of VF. -/
theorem exec_drw_eq_next (h : exec (.drw x y n) s = .next t) :
    (n.val = 0 ∨ s.I.toNat + (n.val - 1) ≤ 0xFFF) ∧ t = s.afterDraw (s.drwDraw x y n) := by
  by_cases hr : n.val = 0 ∨ s.I.toNat + (n.val - 1) ≤ 0xFFF
  · cases h.symm.trans (exec_drw_ok hr)
    exact ⟨hr, rfl⟩
  · cases h.symm.trans (exec_drw_memoryBounds (by omega) (by omega))

theorem flagByte_eq_one_or_zero (b : Bool) : flagByte b = 1#8 ∨ flagByte b = 0#8 := by
  cases b <;> simp

theorem flagByte_eq_one_iff (b : Bool) : flagByte b = 1#8 ↔ b = true := by
  cases b <;> simp

theorem State.getV_VF_afterDraw (s : State) (d : Drawn) :
    (s.afterDraw d).getV VF = flagByte d.collided :=
  State.getV_setV_same _ VF _

/-- After `Dxyn`, VF = 1 exactly when a targeted pixel was on. -/
theorem State.getV_VF_afterDraw_drwDraw_eq_one_iff (s : State) (x y : RegIx) (n : RowCount) :
    (s.afterDraw (s.drwDraw x y n)).getV VF = 1#8 ↔
      ∃ c r, s.drwTargets x y n c r ∧ s.pix.get c r = true := by
  rw [State.getV_VF_afterDraw, flagByte_eq_one_iff]
  exact (s.drwDraw_draws x y n).collided_iff rfl

/-- Settles O45: in range `Dxyn` is the draw of O44 and one write of VF, and the frames are its
lists of registers and parts. -/
theorem drawInstructionBlitsAndSetsCollision :
    Obligations.DrawInstructionBlitsAndSetsCollision := by
  refine fun s x y n => ⟨fun hr => ?drawn, exec_drw_memoryBounds⟩
  case drawn =>
    have he := exec_drw_ok (x := x) (y := y) hr
    have hflips := (s.drwDraw_draws x y n).flips
    refine ⟨_, he, hflips.flipped, hflips.kept, ?flag,
      s.getV_VF_afterDraw_drwDraw_eq_one_iff x y n, fun k hk => ?regs, exec_sameExcept he⟩
    case flag => rw [State.getV_VF_afterDraw]; exact flagByte_eq_one_or_zero _
    case regs => exact exec_getV_of_not_mayWrite he (mt List.mem_singleton.2 hk)

/-- Settles O46: with the registers restored, the second draw has the same coordinates and sprite,
so it flips the same pixels back; a targeted pixel it finds on is one the first turned on. -/
theorem drawIsSelfInverse : Obligations.DrawIsSelfInverse := by
  intro s t x y n h
  obtain ⟨hr, rfl⟩ := exec_drw_eq_next h
  have hfirst := (s.drwDraw_draws x y n).flips
  have hsecond :=
    (State.drwDraw_draws { s.afterDraw (s.drwDraw x y n) with V := s.V } x y n).flips
  refine ⟨_, exec_drw_ok hr, hfirst.get_twice hsecond, ?flag⟩
  case flag =>
    rw [State.getV_VF_afterDraw_drwDraw_eq_one_iff]
    exact exists₂_congr hfirst.target_on_iff

/-! ### Clear -/

/-- Settles O43: the word is the encoding of `00E0`, which is one write of the display. -/
theorem clearTurnsEveryPixelOff : Obligations.ClearTurnsEveryPixelOff :=
  fun s => ⟨decodeWord_encode (i := .cls) rfl,
    _, rfl, fun _ _ => Framebuffer.get_clear, sameExcept_pix s _⟩

/-! ### One pixel by the host (43_display.md R206, R214) -/

theorem State.getPixel_ok {c r : Nat} (h : s.status = .running) (hc : c < 64) (hr : r < 32) :
    s.getPixel c r = some (s.pix.get ⟨c, hc⟩ ⟨r, hr⟩) := by
  rw [getPixel, dif_pos ⟨hc, hr⟩, whileRunning_running h]

theorem State.getPixel_none {c r : Nat} (h : ¬ (c < 64 ∧ r < 32)) : s.getPixel c r = none :=
  dif_neg h

theorem State.setPixel_ok {c r : Nat} (b : Bool) (h : s.status = .running) (hc : c < 64)
    (hr : r < 32) :
    s.setPixel c r b = some { s with pix := s.pix.put ⟨c, hc⟩ ⟨r, hr⟩ b } := by
  rw [setPixel, dif_pos ⟨hc, hr⟩, whileRunning_running h]

theorem State.setPixel_none {c r : Nat} (b : Bool) (h : ¬ (c < 64 ∧ r < 32)) :
    s.setPixel c r b = none :=
  dif_neg h

/-- A pixel of a running core after one was put. -/
theorem State.getPixel_put {c r c' r' : Nat} {b : Bool} (h : s.status = .running) (hc : c < 64)
    (hr : r < 32) :
    ({ s with pix := s.pix.put ⟨c, hc⟩ ⟨r, hr⟩ b } : State).getPixel c' r' =
      if c' = c ∧ r' = r then some b else s.getPixel c' r' := by
  by_cases hin : c' < 64 ∧ r' < 32
  · have hput := getPixel_ok (s := { s with pix := s.pix.put ⟨c, hc⟩ ⟨r, hr⟩ b }) h hin.1 hin.2
    rw [hput, getPixel_ok (s := s) h hin.1 hin.2, Framebuffer.get_put, apply_ite some]
    simp only [Fin.mk.injEq]
  · rw [getPixel_none hin, getPixel_none hin, if_neg]
    rintro ⟨rfl, rfl⟩
    exact hin ⟨hc, hr⟩

/-- Settles O53: in range the call is one put, which a read of the same pixel sees and no other read
does; out of range the guard of both calls fails. -/
theorem setPixelSetsOnePixel : Obligations.SetPixelSetsOnePixel := by
  refine fun s c r b hrun => ⟨fun hc hr => ?inRange, fun hout => ?outOfRange⟩
  case inRange =>
    refine ⟨_, State.setPixel_ok b hrun hc hr, ?put, fun c' r' hne => ?others,
      State.whileRunning_running hrun _, sameExcept_pix s _⟩
    case put => rw [State.getPixel_put hrun, if_pos ⟨rfl, rfl⟩]
    case others => rw [State.getPixel_put hrun, if_neg hne]
  case outOfRange =>
    have hn : ¬ (c < 64 ∧ r < 32) := by omega
    exact ⟨State.setPixel_none b hn, State.getPixel_none hn⟩

end Sys2Proof.Machine

end

/-! ## Keypad, timers and runs of host operations (44_timers_keypad.md, 60_exceptions.md R276) -/

section

namespace Sys2Proof.Machine

variable {s t : State} {op : HostOp} {ops : List HostOp} {x : RegIx} {k j : Nat} {down : Bool}

/-! ### What one host operation can do -/

/-- Only a running core gives an answer, and it is the one at hand. -/
theorem State.whileRunning_eq_some {α : Type} {v w : α} (h : s.whileRunning v = some w) :
    s.status = .running ∧ w = v := by
  cases hs : s.status with
  | running => exact ⟨rfl, Option.some.inj (h.symm.trans (whileRunning_running hs v))⟩
  | halted f => cases h.symm.trans (whileRunning_halted hs v)

/-- The core after "execute one instruction" is the next state of the step, or halted by its fatal
condition; a halted core has none (60_exceptions.md R262, R263). -/
theorem State.executeOne_eq_some (h : s.executeOne = some t) :
    s.status = .running ∧ (step s = .next t ∨ ∃ f, t.status = .halted f) := by
  have hrun : s.status = .running := by
    cases hs : s.status with
    | running => rfl
    | halted f => simp [executeOne, step_halted hs] at h
  refine ⟨hrun, ?_⟩
  unfold executeOne at h
  split at h
  · next hstep => cases h; exact .inl hstep
  · cases h; exact .inr ⟨_, rfl⟩
  · cases h

/-- A host operation moves only a running core. It is one step, which goes on or halts the core, or it
leaves the status and the memory as they are. -/
theorem State.apply_eq_some (h : s.apply op = some t) : s.status = .running ∧
    (step s = .next t ∨ (∃ f, t.status = .halted f) ∨ t.status = s.status ∧ t.mem = s.mem) := by
  cases op with
  | executeOne =>
    obtain ⟨hrun, hnext | hhalted⟩ := executeOne_eq_some h
    · exact ⟨hrun, .inl hnext⟩
    · exact ⟨hrun, .inr (.inl hhalted)⟩
  | tick =>
    obtain ⟨hrun, rfl⟩ := whileRunning_eq_some h
    exact ⟨hrun, .inr (.inr ⟨rfl, rfl⟩)⟩
  | setKey | setPixel =>
    obtain ⟨_, hcall⟩ := Option.dite_none_right_eq_some.1 h
    obtain ⟨hrun, rfl⟩ := whileRunning_eq_some hcall
    exact ⟨hrun, .inr (.inr ⟨rfl, rfl⟩)⟩

/-! ### Runs of host operations -/

theorem State.apply_keeps_inv (hinv : s.Inv) (h : s.apply op = some t) :
    t.Inv ∨ ∃ f, t.status = .halted f := by
  obtain ⟨-, hnext | hhalted | ⟨hstatus, hmem⟩⟩ := apply_eq_some h
  · exact .inl (stepKeepsInvariant s t hinv hnext)
  · exact .inr hhalted
  · obtain ⟨hrun, hwf⟩ := hinv
    exact .inl ⟨hstatus.trans hrun, hmem ▸ hwf⟩

/-- A run from a halted core is the run of no operation (60_exceptions.md R263). -/
theorem State.runHost_halted {f : Fault} (hs : s.status = .halted f) (h : s.runHost ops = some t) :
    t = s := by
  cases ops with
  | nil => exact (Option.some.inj h).symm
  | cons op ops =>
    obtain ⟨u, hu, -⟩ := Option.bind_eq_some_iff.1 h
    obtain ⟨hrun, -⟩ := apply_eq_some hu
    cases hs.symm.trans hrun

/-- Settles O17, by induction on the operations: the first one keeps the invariant, or halts the core
and was the last. -/
theorem everyHostRunKeepsInvariant : Obligations.EveryHostRunKeepsInvariant := by
  intro ops
  induction ops with
  | nil =>
    intro s t hinv h
    cases h
    exact .inl hinv
  | cons op ops ih =>
    intro s t hinv h
    obtain ⟨u, hu, hrest⟩ := Option.bind_eq_some_iff.1 h
    obtain huinv | ⟨f, hf⟩ := State.apply_keeps_inv hinv hu
    · exact ih u t huinv hrest
    · exact .inr ⟨f, State.runHost_halted hf hrest ▸ hf⟩

/-! ### The key skips -/

theorem exec_skp_ok (h : (s.getV x).toNat < 16) :
    exec (.skp x) s = .next (s.skipIf s.key[(s.getV x).toNat]) := by
  rw [exec, execSkp, State.keyDown_ok h, orRaise_ok]

theorem exec_sknp_ok (h : (s.getV x).toNat < 16) :
    exec (.sknp x) s = .next (s.skipIf !s.key[(s.getV x).toNat]) := by
  rw [exec, execSknp, State.keyDown_ok h, orRaise_ok]

theorem exec_skp_keyIndexRange (h : (s.getV x).toNat > 0xF) :
    exec (.skp x) s = .fault (.keyIndexRange (s.pc - 2) (s.getV x)) := by
  rw [exec, execSkp, State.keyDown_error h, orRaise_error, State.faultPc]

theorem exec_sknp_keyIndexRange (h : (s.getV x).toNat > 0xF) :
    exec (.sknp x) s = .fault (.keyIndexRange (s.pc - 2) (s.getV x)) := by
  rw [exec, execSknp, State.keyDown_error h, orRaise_error, State.faultPc]

theorem State.skipIf_not_pc (s : State) (c : Bool) :
    (s.skipIf !c).pc = if c then s.pc else s.pc + 2 := by
  cases c <;> rfl

/-- Settles O47: with a key index both are a skip on the level of key `Vx`, and otherwise the query of
the key reports `Vx`. -/
theorem keySkipsTestTheLevel : Obligations.KeySkipsTestTheLevel :=
  fun s _ => ⟨fun h => ⟨⟨_, exec_skp_ok h, sameExcept_skipIf s _, State.skipIf_pc _⟩,
      ⟨_, exec_sknp_ok h, sameExcept_skipIf s _, s.skipIf_not_pc _⟩⟩,
    fun h => ⟨exec_skp_keyIndexRange h, exec_sknp_keyIndexRange h⟩⟩

/-! ### The key wait -/

/-- With key `k` the lowest key down, `Fx0A` stores `k`. -/
theorem exec_ldVxK_down (x : RegIx) (hk : k < 16) (hd : s.key[k] = true)
    (hu : ∀ (j : Nat) (hj : j < k), s.key[j] = false) :
    exec (.ldVxK x) s = .next (s.setV x (BitVec.ofNat 8 k)) := by
  rw [exec, execLdVxK, State.anyKeyDown_eq_some hk hd hu]

/-- With every key up, `Fx0A` waits. -/
theorem exec_ldVxK_waiting (x : RegIx) (hu : ∀ (j : Nat) (hj : j < 16), s.key[j] = false) :
    exec (.ldVxK x) s = .next s.rewindPc := by
  rw [exec, execLdVxK, State.anyKeyDown_eq_none hu]

/-- Settles O48: the word is the encoding of `Fx0A`, which is one write of `Vx` or one of `pc`; a key
index fits a byte. -/
theorem keyWaitStoresLowestKeyOrRewinds : Obligations.KeyWaitStoresLowestKeyOrRewinds := by
  refine fun s x => ⟨decodeWord_encode (i := .ldVxK x) rfl, fun k hk hd hu => ?down, fun hu =>
    ⟨_, exec_ldVxK_waiting x hu, rfl, sameExcept_setPc s _⟩⟩
  case down =>
    refine ⟨_, exec_ldVxK_down x hk hd hu, ?index, s.setV_frame x _⟩
    case index => rw [State.getV_setV_same, BitVec.toNat_ofNat, Nat.mod_eq_of_lt (by omega)]

/-- The rewind takes back the advance of the fetch. -/
theorem State.rewindPc_advancePc (s : State) : s.advancePc.rewindPc = s := by
  have hpc : s.pc + 2 - 2 = s.pc := BitVec.add_sub_cancel s.pc 2
  rw [rewindPc_eq, advancePc_eq, setPc_pc, hpc]
  rfl

/-- Settles O49: `Fx0A` waits in the advanced state, whose keys are the same, and so takes the advance
back. -/
theorem waitingStepChangesNothing : Obligations.WaitingStepChangesNothing := by
  intro s x hrun hp hword hu
  rw [State.wordAtPc] at hword
  rw [step_running hrun hp, hword, exec_ldVxK_waiting (s := s.advancePc) x hu,
    s.rewindPc_advancePc]

/-! ### The timers -/

/-- Settles O50: the words are the encodings of the three instructions, and each is one write of the
byte it moves. -/
theorem timerInstructionsMoveOneByte : Obligations.TimerInstructionsMoveOneByte :=
  fun s x => ⟨decodeWord_encode (i := .ldVxDT x) rfl, decodeWord_encode (i := .ldDTVx x) rfl,
    decodeWord_encode (i := .ldSTVx x) rfl, ⟨_, rfl, s.getV_setV_same x s.DT, s.setV_frame x s.DT⟩,
    ⟨_, rfl, rfl, sameExcept_setDT s _⟩, ⟨_, rfl, rfl, sameExcept_setST s _⟩⟩

/-- A tick of a running core is one write of each timer. -/
theorem State.tick_running (h : s.status = .running) :
    s.tick = some ((s.setDT (countDown s.DT)).setST (countDown s.ST)) :=
  whileRunning_running h _

/-- Settles O51: each timer is written with its value counted down. -/
theorem tickCountsDownToZero : Obligations.TickCountsDownToZero :=
  fun s hrun => ⟨State.whileRunning_running hrun _, _, State.tick_running hrun,
    toNat_countDown s.DT, toNat_countDown s.ST, (sameExcept_setDT s _).append (sameExcept_setST _ _)⟩

/-! ### One key by the host (44_timers_keypad.md R250, R252) -/

theorem sameExcept_key (s : State) (keys : Vector Bool 16) :
    SameExcept [.keypad] s { s with key := keys } := by
  intro p hp; cases p <;> simp_all [Part.same, State.getV]

theorem State.queryKey_ok (h : s.status = .running) (hj : j < 16) : s.queryKey j = some s.key[j] := by
  rw [queryKey, dif_pos hj, whileRunning_running h]

theorem State.queryKey_none (h : ¬ j < 16) : s.queryKey j = none :=
  dif_neg h

theorem State.setKey_ok (down : Bool) (h : s.status = .running) (hk : k < 16) :
    s.setKey k down = some { s with key := s.key.set k down } := by
  rw [setKey, dif_pos hk, whileRunning_running h]

theorem State.setKey_none (down : Bool) (h : ¬ k < 16) : s.setKey k down = none :=
  dif_neg h

/-- A key of a running core after one was set. -/
theorem State.queryKey_set (h : s.status = .running) (hk : k < 16) :
    ({ s with key := s.key.set k down } : State).queryKey j =
      if j = k then some down else s.queryKey j := by
  by_cases hj : j < 16
  · have hset := queryKey_ok (s := { s with key := s.key.set k down }) h hj
    rw [hset, queryKey_ok h hj, Vector.getElem_set, apply_ite some]
    simp only [eq_comm]
  · rw [queryKey_none hj, queryKey_none hj, if_neg (by omega)]

/-- Settles O52: in range the call is one write of a key, which a query of the same key sees and no
other query does; out of range the guard of both calls fails. -/
theorem setKeySetsOneKey : Obligations.SetKeySetsOneKey := by
  refine fun s k down hrun => ⟨fun hk => ?inRange, fun hout => ?outOfRange⟩
  case inRange =>
    refine ⟨_, State.setKey_ok down hrun hk, ?set, fun j hne => ?others, sameExcept_key s _⟩
    case set => rw [State.queryKey_set hrun hk, if_pos rfl]
    case others => rw [State.queryKey_set hrun hk, if_neg hne]
  case outOfRange =>
    have hn : ¬ k < 16 := by omega
    exact ⟨State.setKey_none down hn, State.queryKey_none hn⟩

end Sys2Proof.Machine

end

/-! ## Fatal conditions and the halted core (60_exceptions.md) -/

section

namespace Sys2Proof.Machine

variable {s : State} {n : Nat} {f : Fault} {o : Outcome}

/-! ### The table of fatal conditions (60_exceptions.md R261) -/

/-- The outcome is the fatal condition the table gives, and a next state where it gives none. -/
def AgreesWithTable (r : Option Fault) (o : Outcome) : Prop :=
  (∀ f, r = some f → o = .fault f) ∧ (r = none → ∃ t, o = .next t)

theorem agreesWithTable_some (h : o = .fault f) : AgreesWithTable (some f) o :=
  ⟨fun _ hf => Option.some.inj hf ▸ h, nofun⟩

theorem agreesWithTable_none (h : ∃ t, o = .next t) : AgreesWithTable none o :=
  ⟨nofun, fun _ => h⟩

/-- An entry of the table with one condition `p` asks for the two outcomes it separates. -/
theorem agreesWithTable_ite {p : Prop} [Decidable p] (hfault : p → o = .fault f)
    (hnext : ¬ p → ∃ t, o = .next t) : AgreesWithTable (if p then some f else none) o := by
  split
  · next hp => exact agreesWithTable_some (hfault hp)
  · next hp => exact agreesWithTable_none (hnext hp)

/-- The entry of an instruction that moves `n` bytes from `I` on, in the form in which the block
operations state their range. -/
theorem agreesWithTable_blockFatal
    (hfault : 0 < n → s.blockAddr + (n - 1) > 0xFFF →
      o = .fault (.memoryBounds (s.pc - 2) (firstOutOfRange s.blockAddr)))
    (hnext : n = 0 ∨ s.blockAddr + (n - 1) ≤ 0xFFF → ∃ t, o = .next t) :
    AgreesWithTable (blockFatal s n) o := by
  refine agreesWithTable_ite (fun ⟨hn, ha⟩ => hfault hn ha) fun hnot => hnext ?inRange
  case inRange =>
    rw [State.blockAddr]
    omega

/-! ### Every instruction agrees with the table -/

theorem exec_call_agreesWithTable (nnn : Addr12) (s : State) :
    AgreesWithTable (fatalCondition (.call nnn) s) (exec (.call nnn) s) :=
  agreesWithTable_ite (exec_call_stackOverflow nnn) fun hne =>
    ⟨_, exec_call_ok nnn (Nat.lt_of_le_of_ne s.sp_le hne)⟩

theorem exec_ret_agreesWithTable (s : State) :
    AgreesWithTable (fatalCondition .ret s) (exec .ret s) := by
  refine agreesWithTable_ite exec_ret_stackUnderflow fun hne => ?entry
  case entry =>
    obtain ⟨k, hk⟩ := Nat.exists_eq_succ_of_ne_zero hne
    exact ⟨_, exec_ret_ok (Nat.lt_of_succ_le (hk ▸ s.sp_le)) hk⟩

/-- The instructions with an entry in the table meet its two sides with their two equations; the
others are plain updates. -/
theorem exec_agreesWithTable (i : Instr) (s : State) :
    AgreesWithTable (fatalCondition i s) (exec i s) := by
  cases i with
  | call nnn => exact exec_call_agreesWithTable nnn s
  | ret => exact exec_ret_agreesWithTable s
  | drw => exact agreesWithTable_blockFatal exec_drw_memoryBounds fun h => ⟨_, exec_drw_ok h⟩
  | ldBVx =>
    exact agreesWithTable_blockFatal (fun _ => exec_ldBVx_memoryBounds) fun h =>
      exec_ldBVx_completes (h.resolve_left (Nat.succ_ne_zero 2))
  | ldMemVx x =>
    exact agreesWithTable_blockFatal (fun _ => exec_ldMemVx_memoryBounds) fun h =>
      exec_ldMemVx_completes (h.resolve_left (Nat.succ_ne_zero x.val))
  | ldVxMem x =>
    exact agreesWithTable_blockFatal (fun _ => exec_ldVxMem_memoryBounds) fun h =>
      ⟨_, exec_ldVxMem_ok (h.resolve_left (Nat.succ_ne_zero x.val))⟩
  | skp =>
    exact agreesWithTable_ite exec_skp_keyIndexRange fun h =>
      ⟨_, exec_skp_ok (Nat.lt_succ_of_le (Nat.le_of_not_gt h))⟩
  | sknp =>
    exact agreesWithTable_ite exec_sknp_keyIndexRange fun h =>
      ⟨_, exec_sknp_ok (Nat.lt_succ_of_le (Nat.le_of_not_gt h))⟩
  | ldVxK x =>
    obtain ⟨t, ht, -⟩ := execLdVxK_goesOn x s
    exact agreesWithTable_none ⟨t, ht⟩
  | _ => exact agreesWithTable_none ⟨_, rfl⟩

/-- Settles O9: every instruction agrees with its entry of the table, by cases on the instruction. -/
theorem fatalConditionsAreExactlyTheTable : Obligations.FatalConditionsAreExactlyTheTable :=
  exec_agreesWithTable

/-! ### The halted core (60_exceptions.md R262, R263) -/

theorem State.executeOne_of_step_fault (h : step s = .fault f) :
    s.executeOne = some ((afterFatal s).enterHalted f) := by
  rw [executeOne, h]

theorem State.haltReason_halted (h : s.status = .halted f) : s.haltReason = some f := by
  rw [haltReason, h]

/-- Only a running core moves. -/
theorem State.apply_halted (h : s.status = .halted f) (op : HostOp) : s.apply op = none := by
  refine Option.eq_none_iff_forall_ne_some.2 fun t ht => ?moved
  case moved =>
    obtain ⟨hrun, -⟩ := apply_eq_some ht
    cases h.symm.trans hrun

/-- A query with a range check has no answer on either side of the check. -/
theorem State.dite_whileRunning_halted {α : Type} {p : Prop} [Decidable p] (h : s.status = .halted f)
    (v : p → α) : (if hp : p then s.whileRunning (v hp) else none) = none := by
  split
  · exact whileRunning_halted h _
  · rfl

/-- Settles O10: the core after the step has the status `halted f`, which gives the reason and allows
no move. -/
theorem fatalConditionHaltsTheCore : Obligations.FatalConditionHaltsTheCore := by
  intro s f hstep
  have hhalted : ((afterFatal s).enterHalted f).status = .halted f := State.enterHalted_status _ f
  exact ⟨_, State.executeOne_of_step_fault hstep, hhalted, State.haltReason_halted hhalted,
    State.apply_halted hhalted .executeOne⟩

/-- Settles O11: a step and a move need a running core, and so does each query, which answers through
`whileRunning`. -/
theorem haltedCoreOnlyShowsItsReason : Obligations.HaltedCoreOnlyShowsItsReason :=
  fun _ _ h => ⟨step_halted h, State.apply_halted h, State.haltReason_halted h,
    State.whileRunning_halted h _, fun _ => State.dite_whileRunning_halted h _,
    State.whileRunning_halted h _, fun _ _ => State.dite_whileRunning_halted h _⟩

end Sys2Proof.Machine

end

/-! ## Reset and the end of a run (70_reset_and_hazards.md) -/

section

namespace Sys2Proof.Machine

variable {font : Vector Byte Config.fontBytes} {unloaded : Nat → Byte} {image : List Byte}

/-! ### Construction (70_reset_and_hazards.md R290, R291) -/

/-- An image that does not fit constructs no core. -/
theorem construct_error (h : 3584 < image.length) :
    construct font unloaded image = .error ⟨image.length⟩ := if_pos h

/-- A constructed core is the reset state with the construction bytes as its memory, and its image
fits. -/
theorem construct_eq_ok {s : State} (h : construct font unloaded image = .ok s) :
    image.length ≤ 3584 ∧
      s = { State.reset with mem := Memory.ofBytes 0 (constructionBytes font unloaded image) } := by
  by_cases hlen : image.length ≤ 3584
  · rw [construct_ok hlen] at h
    exact ⟨hlen, (Except.ok.inj h).symm⟩
  · rw [construct_error (Nat.lt_of_not_le hlen)] at h
    cases h

/-- Construction fills exactly the memory, when the image fits. -/
theorem constructionBytes_length (h : image.length ≤ 3584) :
    (constructionBytes font unloaded image).length = Config.memBytes := by
  have hfont : font.toList.length = 80 := font.length_toList
  simp only [constructionBytes, List.length_append, List.length_map, List.length_range', hfont,
    Config.memBytes]
  omega

/-- Settles O16: the core runs as the reset state does, and a memory made of 4096 bytes from address 0
on is canonical. -/
theorem constructedCoreMeetsInvariant : Obligations.ConstructedCoreMeetsInvariant := by
  intro font unloaded image s h
  obtain ⟨hlen, rfl⟩ := construct_eq_ok h
  exact ⟨rfl, Memory.wf_ofBytes (by rw [constructionBytes_length hlen, Nat.zero_add])⟩

/-- Settles O20: the error of `construct`, and its code. -/
theorem tooLongImageIsALoadError : Obligations.TooLongImageIsALoadError :=
  fun _ _ _ h => ⟨construct_error h, rfl⟩

/-! ### The reset state as a construction (92_eei_decisions.md D12, D13) -/

/-- With the default parameters and an empty image, each construction byte is what its address reads
as unlisted: a font byte below 80, and 0 from there on. -/
theorem constructionBytes_default (hfont : font.toList = defaultFont) {a : Nat}
    (ha : a < Config.memBytes) :
    (constructionBytes font (fun _ => 0) [])[a]? = some (Memory.unlisted a) := by
  unfold Memory.unlisted
  by_cases h : a < Config.fontBytes
  · rw [constructionBytes_font h, if_pos h, ← hfont]
    simp [h]
  · have hout : a < 0x200 ∨ 0x200 + ([] : List Byte).length ≤ a := Nat.lt_or_ge a 0x200
    rw [constructionBytes_unloaded (Nat.le_of_not_lt h) ha hout, if_neg h]
    rfl

/-- Settles O21: the default construction lists no cell of memory, and neither does the reset state. -/
theorem resetIsDefaultConstruction : Obligations.ResetIsDefaultConstruction := by
  intro font hfont
  have hlen : ([] : List Byte).length ≤ 3584 := Nat.zero_le _
  have hmem : Memory.ofBytes 0 (constructionBytes font (fun _ => 0) []) = [] := by
    refine Memory.ofBytes_eq_nil fun k hk => Option.some.inj ?_
    rw [← List.getElem?_eq_getElem hk, Nat.zero_add]
    exact constructionBytes_default hfont (constructionBytes_length hlen ▸ hk)
  rw [construct_ok hlen, hmem]
  rfl

/-! ### The jump to its own address (70_reset_and_hazards.md R297, decision D24) -/

/-- A jump to the address the step started from undoes the advance of `pc`. -/
theorem exec_jp_self {s : State} {nnn : Addr12} (h : nnn.toNat = s.pc.toNat) :
    exec (.jp nnn) s.advancePc = .next s := by
  have hpc : extendAddr nnn = s.pc := BitVec.eq_of_toNat_eq ((toNat_extendAddr nnn).trans h)
  calc exec (.jp nnn) s.advancePc = .next (s.advancePc.setPc (extendAddr nnn)) := rfl
    _ = .next (s.advancePc.setPc s.pc) := by rw [hpc]
    _ = .next s := rfl

/-- Settles O13: the step of a final state executes the jump to its own address. -/
theorem selfJumpStepChangesNothing : Obligations.SelfJumpStepChangesNothing := by
  rintro s ⟨hrun, hfetch, nnn, hword, hself⟩
  have hstep : step s = exec (decodeWord s.wordAtPc) s.advancePc := step_running hrun hfetch
  rw [hstep, hword, exec_jp_self hself]

end Sys2Proof.Machine

end
